-- ==== Sys2Proof/Word.lean ====
section
/-! DEFINITION. The plain values of STEGCORE: bits, bytes and bit sequences (spec/00_scope.md R10, R11). -/

namespace Sys2Proof

/-- One bit, 0 or 1: an element of a BitSequence (R11) and the width of the `BIT` register (R34). -/
abbrev Bit := BitVec 1

/-- One payload byte or one command word: an integer 0 to 255 (R11, R100). -/
abbrev Byte := BitVec 8

/-- A BitSequence (R11): a finite ordered list of bits, insertion order significant. -/
abbrev BitSeq := List Bit

/-- A Payload (R11): an ordered sequence of bytes, possibly empty, with no terminator. -/
abbrev Payload := List Byte

end Sys2Proof
end

