-- ==== Sys2Proof/Config.lean ====
section
/-! DEFINITION. What is fixed for the machine: the implementation parameters of spec/00_scope.md R8, and the
free values the spec leaves open. -/

namespace Sys2Proof

/-- The free parameters of R8 with the constraints R8 puts on them.
`CAPW`, `BLW` and `MAXVAL` follow from these. -/
structure Params where
  /-- `DIMW`: bits in the WIDTH and HEIGHT registers. -/
  dimw : Nat
  /-- `CHW`: bits in the CHANNELS register. -/
  chw : Nat
  /-- `SW`: bits in one channel sample. -/
  sw : Nat
  /-- `HWW`: bits in the HW register. -/
  hww : Nat
  dimw_pos : 1 ≤ dimw
  chw_pos : 1 ≤ chw
  sw_pos : 1 ≤ sw
  hww_fits : 2 * dimw + chw < 2 ^ hww

/-- `CAPW` (R8): bits in a capacity, slot index or byte length. -/
abbrev Params.capw (P : Params) : Nat := 2 * P.dimw + P.chw

/-- `BLW` (R8): bits in a BITBUF length or bit limit. -/
abbrev Params.blw (P : Params) : Nat := P.capw + 4

/-- `MAXVAL` (R8): the sample that stands for logical 1 on a bilevel surface. -/
def Params.maxval (P : Params) : Nat := 2 ^ P.sw - 1

/-- The parameters the machine `State` and `exec` are built at: R8's defaults (log 1, DESIGN CHOICE). -/
def Config.params : Params where
  dimw := 16
  chw := 3
  sw := 8
  hww := 6
  dimw_pos := by decide
  chw_pos := by decide
  sw_pos := by decide
  hww_fits := by decide

/-- FREE VALUE (R37, R179; log 3): `Config.draw n k` is filler bit `k` of the command that runs when the
model's draw counter is `n`. No rule constrains it. -/
opaque Config.draw : Nat → Nat → Bit

/-- FREE VALUE (R44; log 2): what a PAY address holds while nobody has written it. -/
opaque Config.payInitial : Nat → Byte

/-- FREE VALUE (R44; log 2): what a COV slot of `w`-bit samples holds while nobody has written it. -/
opaque Config.covInitial (w : Nat) : Nat → BitVec w

/-- FREE VALUE (log 4): what `OLEN` (`w` bits) holds after a decoder command whose byte count does not fit it.
A function of the decoded bytes, since R128 makes the result depend on the command's arguments alone. -/
opaque Config.olenBeyond (w : Nat) : Payload → BitVec w

end Sys2Proof
end

