-- ==== Sys2Proof/Syntax.lean ====
section
/-! DEFINITION. The twenty commands (spec/30_encoding.md R101), the registers by name (spec/10_state.md R21), and
the lines of a host program (spec/00_scope.md R13, spec/30_encoding.md R105, R106). -/

namespace Sys2Proof

/-- The commands, one constructor per row of spec/opcode_table.json. No command has an operand field (R97, R100). -/
inductive Instr where
  /-- NOP, word 0x00, R215. -/
  | nop
  /-- ECLR, word 0x01, R216. -/
  | eclr
  /-- BCLR, word 0x02, R130. -/
  | bclr
  /-- BPUSH, word 0x03, R131. -/
  | bpush
  /-- BGET, word 0x04, R132. -/
  | bget
  /-- BYTES2BITS, word 0x10, R121. -/
  | bytes2bits
  /-- BITS2BYTES, word 0x11, R125. -/
  | bits2bytes
  /-- BITS2BYTESL, word 0x12, R126. -/
  | bits2bytesl
  /-- BITS2BYTESD, word 0x13, R127. -/
  | bits2bytesd
  /-- HWIDTH, word 0x20, R143. -/
  | hwidth
  /-- VALIDATE, word 0x21, R145. -/
  | validate
  /-- ENCHDR, word 0x22, R151. -/
  | enchdr
  /-- DECHDR, word 0x23, R153. -/
  | dechdr
  /-- MAP, word 0x30, R172. -/
  | map
  /-- RDLSB, word 0x31, R176. -/
  | rdlsb
  /-- WRLSB, word 0x32, R177. -/
  | wrlsb
  /-- READALL, word 0x33, R178. -/
  | readall
  /-- WRBITS, word 0x34, R180. -/
  | wrbits
  /-- HIDE, word 0x40, R200. -/
  | hide
  /-- REVEAL, word 0x41, R205. -/
  | reveal
  deriving DecidableEq, Repr

/-- The seventeen registers of R21, by name. -/
inductive Reg where
  | width | height | channels | mode | cap | hw | plen | dlen | olen | limit | idx | px | py | pch | bit | blen | status
  deriving DecidableEq, Repr

/-- A register name together with a value of exactly that register's width: what `WR` carries and `RD` returns
(R41; widths of R21). -/
inductive RegValue (P : Params) where
  | width (v : BitVec P.dimw)
  | height (v : BitVec P.dimw)
  | channels (v : BitVec P.chw)
  | mode (v : BitVec 3)
  | cap (v : BitVec P.capw)
  | hw (v : BitVec P.hww)
  | plen (v : BitVec P.capw)
  | dlen (v : BitVec P.capw)
  | olen (v : BitVec P.capw)
  | limit (v : BitVec P.blw)
  | idx (v : BitVec P.capw)
  | px (v : BitVec P.dimw)
  | py (v : BitVec P.dimw)
  | pch (v : BitVec P.chw)
  | bit (v : Bit)
  | blen (v : BitVec P.blw)
  | status (v : BitVec 5)
  deriving DecidableEq, Repr

/-- The legal filler modes of `MODE.FILL` (R27). -/
inductive Fill where
  | none | zeroes | random
  deriving DecidableEq, Repr

/-- One transaction of the outside agent, which R7 lets a model take as one: the host's `WR`, `RD` and `CMD`, the
host's accesses to PAY and the collaborator's to COV (R13), and reset (R250). -/
inductive Txn (P : Params) where
  /-- `WR name, value`. -/
  | wr (v : RegValue P)
  /-- `RD name`. -/
  | rd (r : Reg)
  /-- `CMD opcode`: any 8-bit word, reserved ones too. -/
  | cmd (w : Byte)
  /-- The host writes one byte of PAY. -/
  | payWrite (a : BitVec P.capw) (v : Byte)
  /-- The host reads one byte of PAY. -/
  | payRead (a : BitVec P.capw)
  /-- The collaborator writes one sample of COV. -/
  | covWrite (i : BitVec P.capw) (v : BitVec P.sw)
  /-- The collaborator reads one sample of COV. -/
  | covRead (i : BitVec P.capw)
  /-- Reset, taken only between commands (R250). -/
  | reset
  deriving DecidableEq, Repr

/-- The directives of R106. -/
inductive Directive (P : Params) where
  /-- `CFG w, h, c`. -/
  | cfg (w h : BitVec P.dimw) (c : BitVec P.chw)
  /-- `FILL NONE`, `FILL ZEROES`, `FILL RANDOM`. -/
  | fill (f : Fill)
  /-- `BILEVEL 0`, `BILEVEL 1`. -/
  | bilevel (b : Bit)
  /-- `PAYLOAD b0 b1 ...`. -/
  | payload (bs : Payload)
  /-- `COVER v0 v1 ...`. -/
  | cover (vs : List (BitVec P.sw))
  /-- `COVERALL v`. -/
  | coverAll (v : BitVec P.sw)
  /-- `PUSHBITS "b0b1..."`. -/
  | pushBits (bs : BitSeq)
  deriving DecidableEq, Repr

/-- One line of a host program (R105): a transaction or a directive. -/
inductive Line (P : Params) where
  | txn (t : Txn P)
  | directive (d : Directive P)
  deriving DecidableEq, Repr

end Sys2Proof
end

