-- ==== Sys2Proof/WellFormed.lean ====
section
/-! DEFINITION. Which terms are well formed. A command has no operand field (spec/30_encoding.md R97, R100), so every
`Instr` is; two directives of spec/30_encoding.md R106 carry a side condition on their length. -/

namespace Sys2Proof

/-- Every command is well formed: R100 gives a command word no register field, no immediate and no mode bit. -/
def Instr.wellFormed (_ : Instr) : Bool := true

/-- R106's side conditions, for a cover of `cap` slots: `PAYLOAD` writes its length into `PLEN`, so the length fits
`CAPW` bits; `COVER` gives one sample for each slot ("n must equal CAP"). -/
def Directive.wellFormed {P : Params} (cap : Nat) : Directive P → Bool
  | .payload bs => decide (bs.length < 2 ^ P.capw)
  | .cover vs => vs.length == cap
  | .cfg _ _ _ => true
  | .fill _ => true
  | .bilevel _ => true
  | .coverAll _ => true
  | .pushBits _ => true

end Sys2Proof
end

