-- ==== Sys2Proof/Decode.lean ====
section
/-! DEFINITION. The command word (spec/30_encoding.md R100 to R104): decoding any bytes, and encoding a command. -/

namespace Sys2Proof

/-- One row of the opcode map of R101: the group `GRP` (bits [7:4]), the function `FN` (bits [3:0]) and the command. -/
structure OpcodeRow where
  grp : BitVec 4
  fn : BitVec 4
  instr : Instr
  deriving DecidableEq, Repr

/-- The word a row stands for (R100): `GRP` above `FN`. -/
def OpcodeRow.word (r : OpcodeRow) : Byte := r.grp ++ r.fn

/-- R101, group 0: control and stream port. -/
def opcodeGroup0 : List OpcodeRow :=
  [⟨0, 0, .nop⟩, ⟨0, 1, .eclr⟩, ⟨0, 2, .bclr⟩, ⟨0, 3, .bpush⟩, ⟨0, 4, .bget⟩]

/-- R101, group 1: encoder and decoder. -/
def opcodeGroup1 : List OpcodeRow :=
  [⟨1, 0, .bytes2bits⟩, ⟨1, 1, .bits2bytes⟩, ⟨1, 2, .bits2bytesl⟩, ⟨1, 3, .bits2bytesd⟩]

/-- R101, group 2: header width calculator and header engine. -/
def opcodeGroup2 : List OpcodeRow :=
  [⟨2, 0, .hwidth⟩, ⟨2, 1, .validate⟩, ⟨2, 2, .enchdr⟩, ⟨2, 3, .dechdr⟩]

/-- R101, group 3: channel-bit mapper. -/
def opcodeGroup3 : List OpcodeRow :=
  [⟨3, 0, .map⟩, ⟨3, 1, .rdlsb⟩, ⟨3, 2, .wrlsb⟩, ⟨3, 3, .readall⟩, ⟨3, 4, .wrbits⟩]

/-- R101, group 4: the fused operations. -/
def opcodeGroup4 : List OpcodeRow :=
  [⟨4, 0, .hide⟩, ⟨4, 1, .reveal⟩]

/-- The whole opcode map of R101. -/
def opcodeTable : List OpcodeRow :=
  opcodeGroup0 ++ opcodeGroup1 ++ opcodeGroup2 ++ opcodeGroup3 ++ opcodeGroup4

/-- A decoder reads one byte and looks it up in R101 (R104); a word with no row is reserved (R102). -/
def decodeWord (w : Byte) : Option Instr :=
  (opcodeTable.find? fun r => r.word == w).map OpcodeRow.instr

/-- What decoding a list of bytes gives. -/
inductive Decoded where
  /-- A command, and the bytes after its word. -/
  | command (i : Instr) (rest : List Byte)
  /-- One of the 236 reserved words of R102. -/
  | illegalCommand (w : Byte) (rest : List Byte)
  /-- There is no byte to decode. -/
  | noWord
  deriving DecidableEq, Repr

/-- Decoding is total on any bytes; a command is one byte long (R104). -/
def decode : List Byte → Decoded
  | [] => .noWord
  | w :: rest =>
    match decodeWord w with
    | some i => .command i rest
    | none => .illegalCommand w rest

/-- The command word of each command, from the column "word" of R101. -/
def encodeWord : Instr → Byte
  | .nop => 0x00
  | .eclr => 0x01
  | .bclr => 0x02
  | .bpush => 0x03
  | .bget => 0x04
  | .bytes2bits => 0x10
  | .bits2bytes => 0x11
  | .bits2bytesl => 0x12
  | .bits2bytesd => 0x13
  | .hwidth => 0x20
  | .validate => 0x21
  | .enchdr => 0x22
  | .dechdr => 0x23
  | .map => 0x30
  | .rdlsb => 0x31
  | .wrlsb => 0x32
  | .readall => 0x33
  | .wrbits => 0x34
  | .hide => 0x40
  | .reveal => 0x41

/-- The bytes of a command: its one word. -/
def encode (i : Instr) : List Byte := [encodeWord i]

/-- The instruction the decoder reads from an instruction whose bits are `w`, numbered as spec/opcode_table.json
numbers them. Every row is 8 bits, the whole instruction, so a row of another length or with a bit above bit 7 set
is no instruction. -/
def decodeTableWord (nbits w : Nat) : Option Instr :=
  if nbits ≤ 8 ∧ w < 2 ^ 8 then
    match decode [BitVec.ofNat 8 w] with
    | .command i _ => some i
    | .illegalCommand _ _ => none
    | .noWord => none
  else none

end Sys2Proof
end

