-- ==== Sys2Proof/Machine/State.lean ====
section
/-! DEFINITION. The state of the machine (spec/10_state.md), the fault causes (spec/60_exceptions.md R220), and the
reasons for which the model itself stops. -/

namespace Sys2Proof.Machine

/-- A space of `w`-bit cells: the (address, value) pairs somebody has written, addresses strictly rising. An address
that is not listed reads as "nobody has written it" (`none`); see `Memory.load?` and log 2.
`Memory 8` is a list of `Host.Cell`. -/
abbrev Memory (w : Nat) := List (Nat × BitVec w)

/-- The causes `STATUS.ERR` can name, R220. Raising one is no stop of the machine: it is the next state that
`Block.raise` gives. -/
inductive Cause where
  /-- Code 1. -/
  | payloadTooLargeForCover
  /-- Code 2. -/
  | payloadTooLargeForHeader
  /-- Code 3: kept in the numbering, never raised by the block (R224). -/
  | unsupportedCoverFormat
  /-- Code 4. -/
  | truncatedCover
  /-- Code 5. -/
  | illegalCommand
  /-- Code 6. -/
  | illegalConfig
  /-- Code 7. -/
  | indexOutOfRange
  /-- Code 8. -/
  | bitsExceedCapacity
  deriving DecidableEq, Repr

/-- The whole architectural state R20 gives: the registers of R21 but for the views `CAP` and `BLEN`, which hold no
state of their own; BITBUF (R35); and the two spaces the block reaches, PAY (R39) and COV (R40). -/
structure Block (P : Params) where
  /-- x[0] `WIDTH`, R22. -/
  width : BitVec P.dimw
  /-- x[1] `HEIGHT`, R22. -/
  height : BitVec P.dimw
  /-- x[2] `CHANNELS`, R23. -/
  channels : BitVec P.chw
  /-- x[3] `MODE`, R25: bits [1:0] FILL, bit [2] BILEVEL. -/
  mode : BitVec 3
  /-- x[5] `HW`, R28. -/
  hw : BitVec P.hww
  /-- x[6] `PLEN`, R29. -/
  plen : BitVec P.capw
  /-- x[7] `DLEN`, R30. -/
  dlen : BitVec P.capw
  /-- x[8] `OLEN`, R31. -/
  olen : BitVec P.capw
  /-- x[9] `LIMIT`, R32. -/
  limit : BitVec P.blw
  /-- x[10] `IDX`, R33. -/
  idx : BitVec P.capw
  /-- x[11] `PX`, R33. -/
  px : BitVec P.dimw
  /-- x[12] `PY`, R33. -/
  py : BitVec P.dimw
  /-- x[13] `PCH`, R33. -/
  pch : BitVec P.chw
  /-- x[14] `BIT`, R34. -/
  bit : Bit
  /-- x[16] `STATUS`, R36: bits [3:0] ERR, bit [4] FAULT. -/
  status : BitVec 5
  /-- `BITBUF`, R35; `BLEN` reads its length. -/
  bitbuf : BitSeq
  /-- The payload space, R39. -/
  pay : Memory 8
  /-- The cover space, R40. -/
  cov : Memory P.sw
  deriving DecidableEq, Repr

/-- What a read by the outside agent returned (R13, R41). -/
inductive Reply (P : Params) where
  | reg (v : RegValue P)
  | byte (v : Byte)
  | sample (v : BitVec P.sw)
  deriving DecidableEq, Repr

/-- The machine for any choice of the parameters (R8): the block, and three fields of the MODEL's own. -/
structure System (P : Params) extends Block P where
  /-- The outside agent's coming program lines, the next one first (R105; log 6). -/
  host : List (Line P)
  /-- What the outside agent's last read returned (log 7). -/
  reply : Option (Reply P)
  /-- Names the free filler bits of the next WRBITS or HIDE (R37; log 3). -/
  draws : Nat
  deriving DecidableEq, Repr

/-- The machine the host's interface asks for, which has no argument: the one with the parameters of Config (log 1). -/
structure State extends System Config.params
  deriving DecidableEq, Repr

/-- Why the model stops. None of these is a fault of the spec: the spec's faults are next states (R226). -/
inductive Fault where
  /-- Raised by the outside agent's access to a COV index at or above `CAP`, which "names nothing" (R40; log 8). No
  command raises it. Safe: the model stops where the collaborator may go on. -/
  | noSuchSlot
  deriving DecidableEq, Repr

/-- Why the model gives a line no meaning. -/
inductive Refusal where
  /-- Raised by an arm of `exec` whose instruction has no meaning yet. Safe: nothing is claimed of it. -/
  | notModelled (mnemonic : String)
  /-- Raised by a `PAYLOAD` or `COVER` directive that breaks R106's condition on its length (log 9).
  Safe: such a line is no line of the notation, and nothing is claimed of it. -/
  | illFormedDirective
  deriving DecidableEq, Repr

/-- The registers and BITBUF after reset, for given contents of PAY and COV, which reset does not touch (R43, R250). -/
def Block.afterReset {P : Params} (pay : Memory 8) (cov : Memory P.sw) : Block P where
  width := 0
  height := 0
  channels := 0
  mode := 0
  hw := 0
  plen := 0
  dlen := 0
  olen := 0
  limit := 0
  idx := 0
  px := 0
  py := 0
  pch := 0
  bit := 0
  status := 0
  bitbuf := []
  pay := pay
  cov := cov

/-- The machine right after reset (R43): every register 0, BITBUF empty, no byte of PAY and no sample of COV written by
anybody (log 2); the block is idle and waits for the host (log 6, log 7, log 3 for the model's own fields). -/
def System.reset (P : Params) : System P where
  toBlock := Block.afterReset [] []
  host := []
  reply := none
  draws := 0

/-- `System.reset` with the parameters of Config. -/
def State.reset : State where
  toSystem := System.reset Config.params

end Sys2Proof.Machine
end

