-- ==== Sys2Proof/Machine/Operands.lean ====
section
/-! DEFINITION. The pure functions of the four units: the only values assembled from bits (spec/30_encoding.md R97),
the header width and capacity check (spec/41_header_engine.md), and the slot arithmetic (spec/42_channel_mapper.md).
All of them are read over the natural numbers (spec/00_scope.md R9). -/

namespace Sys2Proof.Machine

/-- Element `k` of a bit sequence (R11); 0 where the sequence has no such element, a case no rule reads. -/
def bitAt (s : BitSeq) (k : Nat) : Bit := s.getD k 0

/-- The eight bits of a byte, bit 7 first (R120). -/
def byteBits (b : Byte) : BitSeq := (List.range 8).map fun m => b.extractLsb' (7 - m) 1

/-- `bytes_to_bits` (R120). -/
def bytesToBits (p : Payload) : BitSeq := p.flatMap byteBits

/-- Byte `k` of the decoder's output (R122): the first bit of the group is the byte's most significant bit. -/
def byteFrom (s : BitSeq) (k : Nat) : Byte :=
  BitVec.ofNat 8
    ((bitAt s (8 * k)).toNat * 128 + (bitAt s (8 * k + 1)).toNat * 64 + (bitAt s (8 * k + 2)).toNat * 32 +
      (bitAt s (8 * k + 3)).toNat * 16 + (bitAt s (8 * k + 4)).toNat * 8 + (bitAt s (8 * k + 5)).toNat * 4 +
      (bitAt s (8 * k + 6)).toNat * 2 + (bitAt s (8 * k + 7)).toNat)

/-- How many bits the decoder has to work on (R122, R124): the limit, where there is one, is counted in bits. -/
def availableBits (s : BitSeq) : Option Nat → Nat
  | none => s.length
  | some limit => min s.length limit

/-- `bits_to_bytes` (R122, R123): whole groups of 8 only. -/
def bitsToBytes (s : BitSeq) (limit : Option Nat) : Payload :=
  (List.range (availableBits s limit / 8)).map (byteFrom s)

/-- `ceil_log2` (R10): the number of bits in the binary numeral of `n - 1`, 0 for `n = 1`. -/
def ceilLog2 (n : Nat) : Nat := if n ≤ 1 then 0 else Nat.log2 (n - 1) + 1

/-- `header_width` (R140, R141). -/
def headerWidth (capacityBits : Nat) : Nat :=
  if capacityBits / 8 ≤ 1 then 0 else ceilLog2 (capacityBits / 8)

/-- `validate_capacity` (R144): the first test that fails, if any. -/
def capacityCheck (len capacityBits h : Nat) : Option Cause :=
  if capacityBits < 8 * len + h then some .payloadTooLargeForCover
  else if 2 ^ h ≤ len then some .payloadTooLargeForHeader
  else none

/-- `encode_header` (R150): the `h`-bit numeral of `len`, most significant bit first. -/
def encodeHeader (len h : Nat) : BitSeq :=
  (List.range h).map fun j => BitVec.ofNat 1 (len / 2 ^ (h - 1 - j) % 2)

/-- `decode_header` (R152). -/
def decodeHeader (s : BitSeq) : Nat := s.foldl (fun v b => 2 * v + b.toNat) 0

/-- A pixel's column, row, and a channel within it. -/
structure Position where
  x : Nat
  y : Nat
  c : Nat
  deriving DecidableEq, Repr

/-- `slot_to_pixel` (R171), for a cover of `width` columns and `channels` channels. -/
def slotToPixel (width channels i : Nat) : Position where
  x := i / channels % width
  y := i / channels / width
  c := i % channels

/-- The other direction of R171: `i = (y*WIDTH + x)*CHANNELS + c`. -/
def pixelToSlot (width channels : Nat) (p : Position) : Nat := (p.y * width + p.x) * channels + p.c

/-- `lsb` (R174): bit 0 of a sample. -/
def lsb {w : Nat} (v : BitVec w) : Bit := v.setWidth 1

/-- `put_bit` (R175): the new sample for bit `b` where the present one is `v`. -/
def putBit {P : Params} (bilevel : Bit) (v : BitVec P.sw) (b : Bit) : BitVec P.sw :=
  if bilevel = 0 then
    if b = 1 then v ||| 1#P.sw else v &&& ~~~1#P.sw
  else
    if b = 1 then BitVec.ofNat P.sw P.maxval else 0

/-- The filler of a filler mode (R27, R179): none, all zeroes, or the unconstrained draws `rnd` (R37). -/
def fillerOf (rnd : Nat → Bit) : Fill → Option (Nat → Bit)
  | .none => none
  | .zeroes => some fun _ => 0
  | .random => some rnd

/-- The first `n` bits of a filler, starting at filler bit 0; no bits where there is no filler (R179). -/
def fillerBits (filler : Option (Nat → Bit)) (n : Nat) : BitSeq :=
  match filler with
  | none => []
  | some f => (List.range n).map f

end Sys2Proof.Machine
end

