-- ==== Sys2Proof/Machine/Flags.lean ====
section
/-! DEFINITION. The fields of STATUS (spec/10_state.md R36, spec/60_exceptions.md R220) and of MODE (spec/10_state.md
R25 to R27). -/

namespace Sys2Proof.Machine

/-- The code of each cause in `STATUS.ERR`, R220. -/
def Cause.code : Cause → BitVec 4
  | .payloadTooLargeForCover => 1
  | .payloadTooLargeForHeader => 2
  | .unsupportedCoverFormat => 3
  | .truncatedCover => 4
  | .illegalCommand => 5
  | .illegalConfig => 6
  | .indexOutOfRange => 7
  | .bitsExceedCapacity => 8

/-- `STATUS.ERR`, bits [3:0] (R36). -/
def statusErr (status : BitVec 5) : BitVec 4 := status.extractLsb' 0 4

/-- `STATUS.FAULT`, bit [4] (R36). -/
def statusFault (status : BitVec 5) : Bit := status.extractLsb' 4 1

/-- STATUS from its two fields (R36). -/
def statusOf (fault : Bit) (err : BitVec 4) : BitVec 5 := fault ++ err

/-- STATUS after a command that succeeds: `ERR` 0, the sticky `FAULT` as it was (R36). -/
def statusSucceeded (status : BitVec 5) : BitVec 5 := statusOf (statusFault status) 0

/-- STATUS after a command that raises `c`: `ERR` its code, `FAULT` 1, whatever STATUS was (R226, R237). -/
def statusRaised (c : Cause) : BitVec 5 := statusOf 1 c.code

/-- `MODE.FILL`, bits [1:0] (R25). -/
def modeFill (mode : BitVec 3) : BitVec 2 := mode.extractLsb' 0 2

/-- `MODE.BILEVEL`, bit [2] (R25). -/
def modeBilevel (mode : BitVec 3) : Bit := mode.extractLsb' 2 1

/-- MODE from its two fields (R25). -/
def modeOf (bilevel : Bit) (fill : BitVec 2) : BitVec 3 := bilevel ++ fill

/-- The number of a filler mode in `MODE.FILL`, R27. -/
def fillCode : Fill → BitVec 2
  | .none => 0
  | .zeroes => 1
  | .random => 2

/-- The filler mode `MODE.FILL` names (R27); 3 is reserved and names none. -/
def fillOf (fill : BitVec 2) : Option Fill :=
  if fill = 0 then some .none
  else if fill = 1 then some .zeroes
  else if fill = 2 then some .random
  else none

end Sys2Proof.Machine
end

