-- ==== Sys2Proof/Machine/Ops.lean ====
section
/-! DEFINITION. The shared operations: one cell of a space, the registers by name, the slots of the cover and the
bytes of the payload, and the two ways a command ends (success, `raise`). -/

namespace Sys2Proof.Machine

/-! ### One cell of a space -/

/-- The value somebody wrote at an address; `none` where nobody has written. -/
def Memory.load? {w : Nat} : Memory w → Nat → Option (BitVec w)
  | [], _ => none
  | (k, v) :: m, a => if a = k then some v else Memory.load? m a

/-- Writes one cell, keeping the addresses strictly rising. -/
def Memory.store {w : Nat} : Memory w → Nat → BitVec w → Memory w
  | [], a, v => [(a, v)]
  | (k, u) :: m, a, v =>
    if a < k then (a, v) :: (k, u) :: m
    else if a = k then (a, v) :: m
    else (k, u) :: Memory.store m a v

/-- The canonical form: addresses strictly rising. (An unlisted address loads as `none`, which no entry equals.) -/
abbrev Memory.wf {w : Nat} (m : Memory w) : Prop := (m.map Prod.fst).Pairwise (· < ·)

/-- Every listed address is below `bound`. -/
abbrev Memory.below {w : Nat} (m : Memory w) (bound : Nat) : Prop := ∀ c ∈ m, c.1 < bound

section
variable {P : Params}

/-! ### The derived views and the fields of registers -/

/-- `CAP` (R24): `WIDTH * HEIGHT * CHANNELS`, exactly. -/
def Block.cap (b : Block P) : Nat := b.width.toNat * b.height.toNat * b.channels.toNat

/-- `STATUS.ERR` (R36). -/
def Block.err (b : Block P) : BitVec 4 := statusErr b.status

/-- `STATUS.FAULT` (R36). -/
def Block.faultFlag (b : Block P) : Bit := statusFault b.status

/-- `MODE.BILEVEL` (R26). -/
def Block.bilevel (b : Block P) : Bit := modeBilevel b.mode

/-- The filler mode of `MODE.FILL` (R27); `none` for the reserved value 3. -/
def Block.fill? (b : Block P) : Option Fill := fillOf (modeFill b.mode)

/-! ### Registers by name and number (R21, R41) -/

/-- The number of a register, R21. -/
def regNumber : Reg → Nat
  | .width => 0
  | .height => 1
  | .channels => 2
  | .mode => 3
  | .cap => 4
  | .hw => 5
  | .plen => 6
  | .dlen => 7
  | .olen => 8
  | .limit => 9
  | .idx => 10
  | .px => 11
  | .py => 12
  | .pch => 13
  | .bit => 14
  | .blen => 15
  | .status => 16

/-- The width of a register in bits, R21. -/
def regWidth (P : Params) : Reg → Nat
  | .width => P.dimw
  | .height => P.dimw
  | .channels => P.chw
  | .mode => 3
  | .cap => P.capw
  | .hw => P.hww
  | .plen => P.capw
  | .dlen => P.capw
  | .olen => P.capw
  | .limit => P.blw
  | .idx => P.capw
  | .px => P.dimw
  | .py => P.dimw
  | .pch => P.chw
  | .bit => 1
  | .blen => P.blw
  | .status => 5

/-- Whether the host may write a register: the column "host" of R21. -/
def hostMayWrite : Reg → Bool
  | .width => true
  | .height => true
  | .channels => true
  | .mode => true
  | .cap => false
  | .hw => true
  | .plen => true
  | .dlen => false
  | .olen => false
  | .limit => true
  | .idx => true
  | .px => false
  | .py => false
  | .pch => false
  | .bit => true
  | .blen => false
  | .status => false

/-- The register a value belongs to. -/
def regOf : RegValue P → Reg
  | .width _ => .width
  | .height _ => .height
  | .channels _ => .channels
  | .mode _ => .mode
  | .cap _ => .cap
  | .hw _ => .hw
  | .plen _ => .plen
  | .dlen _ => .dlen
  | .olen _ => .olen
  | .limit _ => .limit
  | .idx _ => .idx
  | .px _ => .px
  | .py _ => .py
  | .pch _ => .pch
  | .bit _ => .bit
  | .blen _ => .blen
  | .status _ => .status

/-- A register's value as a number (R10: all values are unsigned). -/
def regNat : RegValue P → Nat
  | .width v => v.toNat
  | .height v => v.toNat
  | .channels v => v.toNat
  | .mode v => v.toNat
  | .cap v => v.toNat
  | .hw v => v.toNat
  | .plen v => v.toNat
  | .dlen v => v.toNat
  | .olen v => v.toNat
  | .limit v => v.toNat
  | .idx v => v.toNat
  | .px v => v.toNat
  | .py v => v.toNat
  | .pch v => v.toNat
  | .bit v => v.toNat
  | .blen v => v.toNat
  | .status v => v.toNat

/-- `RD name` (R41): the register's value. `CAP` is the product (R24), `BLEN` the length of BITBUF (R35). -/
def Block.readReg (b : Block P) : Reg → RegValue P
  | .width => .width b.width
  | .height => .height b.height
  | .channels => .channels b.channels
  | .mode => .mode b.mode
  | .cap => .cap (BitVec.ofNat P.capw b.cap)
  | .hw => .hw b.hw
  | .plen => .plen b.plen
  | .dlen => .dlen b.dlen
  | .olen => .olen b.olen
  | .limit => .limit b.limit
  | .idx => .idx b.idx
  | .px => .px b.px
  | .py => .py b.py
  | .pch => .pch b.pch
  | .bit => .bit b.bit
  | .blen => .blen (BitVec.ofNat P.blw b.bitbuf.length)
  | .status => .status b.status

/-- `WR name, value` (R41): stores the value in a register marked "read, write" in R21; a write to a register marked
"read only" is ignored. -/
def Block.writeReg (b : Block P) : RegValue P → Block P
  | .width v => { b with width := v }
  | .height v => { b with height := v }
  | .channels v => { b with channels := v }
  | .mode v => { b with mode := v }
  | .cap _ => b
  | .hw v => { b with hw := v }
  | .plen v => { b with plen := v }
  | .dlen _ => b
  | .olen _ => b
  | .limit v => { b with limit := v }
  | .idx v => { b with idx := v }
  | .px _ => b
  | .py _ => b
  | .pch _ => b
  | .bit v => { b with bit := v }
  | .blen _ => b
  | .status _ => b

/-! ### How a command ends -/

/-- The outcome of one command on the block. -/
abbrev Result (P : Params) := Host.Outcome (Block P) Fault Refusal

/-- A command succeeds: `STATUS.ERR` <- 0, `STATUS.FAULT` as it was (R36). -/
def Block.succeed (b : Block P) : Block P := { b with status := statusSucceeded b.status }

/-- `raise c` (R226): `STATUS.ERR` <- the code of `c`, `STATUS.FAULT` <- 1, and nothing else changes. This is the whole
of taking an exception: no vector, no saved state, no change of mode; control stays with the host. There is no return
from it (R237): `FAULT` goes back to 0 by ECLR or reset. -/
def Block.raise (b : Block P) (c : Cause) : Block P := { b with status := statusRaised c }

/-! ### The payload space PAY (R39, R60) -/

/-- One byte of PAY. A byte nobody has written is a free value (R44; log 2). -/
def Block.readPay (b : Block P) (a : Nat) : Byte := (b.pay.load? a).getD (Config.payInitial a)

/-- Writes one byte of PAY. -/
def Block.writePay (b : Block P) (a : Nat) (v : Byte) : Block P := { b with pay := b.pay.store a v }

/-- `MemRead(PAY:0, n)` (R12): `n` bytes in address order. -/
def Block.loadBytes (b : Block P) (n : Nat) : Payload := (List.range n).map b.readPay

/-- `MemWrite(PAY:a, len(bs), bs)` (R12): the bytes in ascending address order. -/
def Block.storeBytes (b : Block P) : Nat → Payload → Block P
  | _, [] => b
  | a, v :: bs => (b.writePay a v).storeBytes (a + 1) bs

/-! ### The cover space COV (R40, R60, R64) -/

/-- One sample of COV. A sample nobody has written is a free value (R44; log 2). -/
def Block.readCov (b : Block P) (i : Nat) : BitVec P.sw := (b.cov.load? i).getD (Config.covInitial P.sw i)

/-- Writes one sample of COV. -/
def Block.writeCov (b : Block P) (i : Nat) (v : BitVec P.sw) : Block P := { b with cov := b.cov.store i v }

/-- A slot write (R64, R175): a read of the sample, then a write of it with the bit put in; made also when nothing
changes. -/
def Block.putSlot (b : Block P) (i : Nat) (x : Bit) : Block P := b.writeCov i (putBit b.bilevel (b.readCov i) x)

/-- Puts the bits of a sequence into the slots from `i` upward, one after another (R94, R180). -/
def Block.putBits (b : Block P) : Nat → BitSeq → Block P
  | _, [] => b
  | i, x :: s => (b.putSlot i x).putBits (i + 1) s

/-- The LSBs of the `n` slots from `i` upward, in ascending order (R174, R178). -/
def Block.readLsbs (b : Block P) (i n : Nat) : BitSeq := (List.range' i n).map fun k => lsb (b.readCov k)

/-- `write_bits` (R180): the sequence from slot 0, then, where there is a filler, filler bits from filler bit 0 in
every slot that is left (R181, R182). -/
def Block.writeStream (b : Block P) (filler : Option (Nat → Bit)) (s : BitSeq) : Block P :=
  (b.putBits 0 s).putBits s.length (fillerBits filler (b.cap - s.length))

/-! ### The collaborator's pixel port (R65) -/

/-- `get_pixel(x, y)` (R65): the tuple of the pixel's samples, channel 0 first. -/
def Block.getPixel (b : Block P) (x y : Nat) : List (BitVec P.sw) :=
  (List.range b.channels.toNat).map fun c => b.readCov (pixelToSlot b.width.toNat b.channels.toNat ⟨x, y, c⟩)

/-- Writes a tuple of samples to the slots from `i` upward. -/
def Block.writeSamples (b : Block P) : Nat → List (BitVec P.sw) → Block P
  | _, [] => b
  | i, v :: vs => (b.writeCov i v).writeSamples (i + 1) vs

/-- `set_pixel(x, y, values)` (R65): writes the whole tuple of one pixel. -/
def Block.setPixel (b : Block P) (x y : Nat) (vs : List (BitVec P.sw)) : Block P :=
  b.writeSamples (pixelToSlot b.width.toNat b.channels.toNat ⟨x, y, 0⟩) vs

/-! ### A command on the machine -/

/-- An outcome with its next state changed. -/
def mapNext {α β : Type} (f : α → β) : Host.Outcome α Fault Refusal → Host.Outcome β Fault Refusal
  | .next a => .next (f a)
  | .fault e => .fault e
  | .refused r => .refused r

/-- Runs a command of the block on the machine; the model's own fields stay as they are. -/
def System.run (m : System P) (f : Block P → Result P) : Host.Outcome (System P) Fault Refusal :=
  mapNext (fun b => { m with toBlock := b }) (f m.toBlock)

/-- Runs a command that may use a random filler (R37): it gets the draws named by the model's counter, and the counter
advances when the command succeeds, so that the next command's draws are fresh (log 3). -/
def System.runDrawing (m : System P) (f : (Nat → Bit) → Block P → Result P) : Host.Outcome (System P) Fault Refusal :=
  mapNext (fun b => { m with toBlock := b, draws := if b.err = 0 then m.draws + 1 else m.draws })
    (f (Config.draw m.draws) m.toBlock)

end

/-- `System.run` with the parameters of Config. -/
def State.run (s : State) (f : Block Config.params → Result Config.params) : Host.Outcome State Fault Refusal :=
  mapNext State.mk (s.toSystem.run f)

/-- `System.runDrawing` with the parameters of Config. -/
def State.runDrawing (s : State) (f : (Nat → Bit) → Block Config.params → Result Config.params) :
    Host.Outcome State Fault Refusal :=
  mapNext State.mk (s.toSystem.runDrawing f)

end Sys2Proof.Machine
end

