-- ==== Sys2Proof/Machine/Codec.lean ====
section
/-! DEFINITION. The encoder and decoder commands BYTES2BITS, BITS2BYTES, BITS2BYTESL and BITS2BYTESD
(spec/40_bitstream_codec.md sections 3 and 4). -/

namespace Sys2Proof.Machine

section
variable {P : Params}

/-- What `OLEN` holds after the decoder gave `bs` (R31): the number of bytes. A number that the register cannot hold,
2^CAPW or more, leaves a free value (log 4). -/
def olenAfter (P : Params) (bs : Payload) : BitVec P.capw :=
  if bs.length < 2 ^ P.capw then BitVec.ofNat P.capw bs.length else Config.olenBeyond P.capw bs

/-- The end that R125, R126 and R127 share, which cannot fault (R232): the bytes go to PAY from address 0, their number to
`OLEN`. PAY has 2^CAPW addresses (R39) and the block forms no other (R67): a byte past the last one goes nowhere
(log 5). -/
def Block.deliver (b : Block P) (bs : Payload) : Result P :=
  .next { b.storeBytes 0 (bs.take (2 ^ P.capw)) with olen := olenAfter P bs }.succeed

/-- BYTES2BITS (R121): BITBUF <- the bits of the `PLEN` bytes of PAY. -/
def Block.cmdBytes2bits (b : Block P) : Result P :=
  .next { b with bitbuf := bytesToBits (b.loadBytes b.plen.toNat) }.succeed

/-- BITS2BYTES (R125): the decoder with no limit. -/
def Block.cmdBits2bytes (b : Block P) : Result P := b.deliver (bitsToBytes b.bitbuf none)

/-- BITS2BYTESL (R126): the decoder limited to `LIMIT` bits. -/
def Block.cmdBits2bytesl (b : Block P) : Result P := b.deliver (bitsToBytes b.bitbuf (some b.limit.toNat))

/-- BITS2BYTESD (R127): the decoder limited to `8*DLEN` bits. -/
def Block.cmdBits2bytesd (b : Block P) : Result P := b.deliver (bitsToBytes b.bitbuf (some (8 * b.dlen.toNat)))

end

/-- BYTES2BITS on the machine. -/
def execBytes2bits (s : State) : Host.Outcome State Fault Refusal := s.run Block.cmdBytes2bits

/-- BITS2BYTES on the machine. -/
def execBits2bytes (s : State) : Host.Outcome State Fault Refusal := s.run Block.cmdBits2bytes

/-- BITS2BYTESL on the machine. -/
def execBits2bytesl (s : State) : Host.Outcome State Fault Refusal := s.run Block.cmdBits2bytesl

/-- BITS2BYTESD on the machine. -/
def execBits2bytesd (s : State) : Host.Outcome State Fault Refusal := s.run Block.cmdBits2bytesd

end Sys2Proof.Machine
end

