-- ==== Sys2Proof/Machine/Control.lean ====
section
/-! DEFINITION. The control commands NOP and ECLR (spec/44_control.md). -/

namespace Sys2Proof.Machine

/-- NOP (R215): `STATUS.ERR` <- 0. -/
def Block.cmdNop {P : Params} (b : Block P) : Result P := .next b.succeed

/-- ECLR (R216): `STATUS.ERR` <- 0 and `STATUS.FAULT` <- 0. -/
def Block.cmdEclr {P : Params} (b : Block P) : Result P := .next { b with status := statusOf 0 0 }

/-- NOP on the machine. -/
def execNop (s : State) : Host.Outcome State Fault Refusal := s.run Block.cmdNop

/-- ECLR on the machine. -/
def execEclr (s : State) : Host.Outcome State Fault Refusal := s.run Block.cmdEclr

end Sys2Proof.Machine
end

