-- ==== Sys2Proof/Machine/Header.lean ====
section
/-! DEFINITION. The header width calculator and the header engine: HWIDTH, VALIDATE, ENCHDR and DECHDR
(spec/41_header_engine.md). -/

namespace Sys2Proof.Machine

section
variable {P : Params}

/-- HWIDTH (R143): `HW` <- `header_width(CAP)`; the old `HW` is not read. -/
def Block.cmdHwidth (b : Block P) : Result P :=
  .next { b with hw := BitVec.ofNat P.hww (headerWidth b.cap) }.succeed

/-- VALIDATE (R145): the capacity check with `HW` as it stands; `IllegalConfig` for a reserved `HW` comes first. -/
def Block.cmdValidate (b : Block P) : Result P :=
  if P.capw < b.hw.toNat then .next (b.raise .illegalConfig)
  else
    match capacityCheck b.plen.toNat b.cap b.hw.toNat with
    | some c => .next (b.raise c)
    | none => .next b.succeed

/-- ENCHDR (R151): puts the header in front of whatever BITBUF holds. -/
def Block.cmdEnchdr (b : Block P) : Result P :=
  if P.capw < b.hw.toNat then .next (b.raise .illegalConfig)
  else if 2 ^ b.hw.toNat ≤ b.plen.toNat then .next (b.raise .payloadTooLargeForHeader)
  else if 2 ^ P.blw - 1 < b.bitbuf.length + b.hw.toNat then .next (b.raise .indexOutOfRange)
  else .next { b with bitbuf := encodeHeader b.plen.toNat b.hw.toNat ++ b.bitbuf }.succeed

/-- DECHDR (R153): takes the first `HW` bits of BITBUF as a header, its value to `DLEN`, and removes them. -/
def Block.cmdDechdr (b : Block P) : Result P :=
  if P.capw < b.hw.toNat then .next (b.raise .illegalConfig)
  else if b.bitbuf.length < b.hw.toNat then .next (b.raise .truncatedCover)
  else
    .next
      { b with
        dlen := BitVec.ofNat P.capw (decodeHeader (b.bitbuf.take b.hw.toNat))
        bitbuf := b.bitbuf.drop b.hw.toNat }.succeed

end

/-- HWIDTH on the machine. -/
def execHwidth (s : State) : Host.Outcome State Fault Refusal := s.run Block.cmdHwidth

/-- VALIDATE on the machine. -/
def execValidate (s : State) : Host.Outcome State Fault Refusal := s.run Block.cmdValidate

/-- ENCHDR on the machine. -/
def execEnchdr (s : State) : Host.Outcome State Fault Refusal := s.run Block.cmdEnchdr

/-- DECHDR on the machine. -/
def execDechdr (s : State) : Host.Outcome State Fault Refusal := s.run Block.cmdDechdr

end Sys2Proof.Machine
end

