-- ==== Sys2Proof/Machine/HideReveal.lean ====
section
/-! DEFINITION. The fused operations HIDE and REVEAL (spec/43_hide_reveal.md). -/

namespace Sys2Proof.Machine

section
variable {P : Params}

/-- The stream of a payload for a header of `h` bits (R90, R200): header, then payload bits. -/
def streamOf (h : Nat) (p : Payload) : BitSeq := encodeHeader p.length h ++ bytesToBits p

/-- HIDE (R200) with the draws `rnd`. All checks come before any access to PAY or COV; the old `HW` is not read. -/
def Block.cmdHide (rnd : Nat → Bit) (b : Block P) : Result P :=
  let h := headerWidth b.cap
  match b.fill? with
  | none => .next (b.raise .illegalConfig)
  | some f =>
    match capacityCheck b.plen.toNat b.cap h with
    | some c => .next (b.raise c)
    | none =>
      .next
        { b.writeStream (fillerOf rnd f) (streamOf h (b.loadBytes b.plen.toNat)) with
          hw := BitVec.ofNat P.hww h
          bitbuf := [] }.succeed

/-- REVEAL (R205): header width from `CAP`, length from the header, then exactly that many bytes to PAY.
`TruncatedCover` where the header asks for more than the cover holds (R206). -/
def Block.cmdReveal (b : Block P) : Result P :=
  let h := headerWidth b.cap
  let len := decodeHeader (b.readLsbs 0 h)
  if b.cap < h + 8 * len then .next (b.raise .truncatedCover)
  else
    .next
      { b.storeBytes 0 (bitsToBytes (b.readLsbs h (8 * len)) (some (8 * len))) with
        hw := BitVec.ofNat P.hww h
        dlen := BitVec.ofNat P.capw len
        olen := BitVec.ofNat P.capw len
        bitbuf := [] }.succeed

end

/-- HIDE on the machine. -/
def execHide (s : State) : Host.Outcome State Fault Refusal := s.runDrawing Block.cmdHide

/-- REVEAL on the machine. -/
def execReveal (s : State) : Host.Outcome State Fault Refusal := s.run Block.cmdReveal

end Sys2Proof.Machine
end

