-- ==== Sys2Proof/Machine/Mapper.lean ====
section
/-! DEFINITION. The channel-bit mapper: MAP, RDLSB, WRLSB, READALL and WRBITS (spec/42_channel_mapper.md). -/

namespace Sys2Proof.Machine

section
variable {P : Params}

/-- MAP (R172): the pixel and channel of slot `IDX`; no access to COV. -/
def Block.cmdMap (b : Block P) : Result P :=
  if b.cap ≤ b.idx.toNat then .next (b.raise .indexOutOfRange)
  else
    let p := slotToPixel b.width.toNat b.channels.toNat b.idx.toNat
    .next
      { b with px := BitVec.ofNat P.dimw p.x, py := BitVec.ofNat P.dimw p.y, pch := BitVec.ofNat P.chw p.c }.succeed

/-- RDLSB (R176): `BIT` <- the LSB of slot `IDX`. -/
def Block.cmdRdlsb (b : Block P) : Result P :=
  if b.cap ≤ b.idx.toNat then .next (b.raise .indexOutOfRange)
  else .next { b with bit := lsb (b.readCov b.idx.toNat) }.succeed

/-- WRLSB (R177): puts `BIT` into slot `IDX`. -/
def Block.cmdWrlsb (b : Block P) : Result P :=
  if b.cap ≤ b.idx.toNat then .next (b.raise .indexOutOfRange)
  else .next (b.putSlot b.idx.toNat b.bit).succeed

/-- READALL (R178): BITBUF <- the LSBs of slots 0 to `CAP`-1. -/
def Block.cmdReadall (b : Block P) : Result P := .next { b with bitbuf := b.readLsbs 0 b.cap }.succeed

/-- WRBITS (R180) with the draws `rnd`: BITBUF into the slots, then the filler. `IllegalConfig` for the reserved filler
mode, then `BitsExceedCapacity`, both before any access to COV. -/
def Block.cmdWrbits (rnd : Nat → Bit) (b : Block P) : Result P :=
  match b.fill? with
  | none => .next (b.raise .illegalConfig)
  | some f =>
    if b.cap < b.bitbuf.length then .next (b.raise .bitsExceedCapacity)
    else .next (b.writeStream (fillerOf rnd f) b.bitbuf).succeed

end

/-- MAP on the machine. -/
def execMap (s : State) : Host.Outcome State Fault Refusal := s.run Block.cmdMap

/-- RDLSB on the machine. -/
def execRdlsb (s : State) : Host.Outcome State Fault Refusal := s.run Block.cmdRdlsb

/-- WRLSB on the machine. -/
def execWrlsb (s : State) : Host.Outcome State Fault Refusal := s.run Block.cmdWrlsb

/-- READALL on the machine. -/
def execReadall (s : State) : Host.Outcome State Fault Refusal := s.run Block.cmdReadall

/-- WRBITS on the machine. -/
def execWrbits (s : State) : Host.Outcome State Fault Refusal := s.runDrawing Block.cmdWrbits

end Sys2Proof.Machine
end

