-- ==== Sys2Proof/Machine/StreamPort.lean ====
section
/-! DEFINITION. The stream port: BCLR, BPUSH and BGET (spec/40_bitstream_codec.md section 5). -/

namespace Sys2Proof.Machine

section
variable {P : Params}

/-- BCLR (R130): empties BITBUF. -/
def Block.cmdBclr (b : Block P) : Result P := .next { b with bitbuf := [] }.succeed

/-- BPUSH (R131): appends `BIT`; `IndexOutOfRange` where BITBUF has the most bits `BLEN` can count. -/
def Block.cmdBpush (b : Block P) : Result P :=
  if b.bitbuf.length = 2 ^ P.blw - 1 then .next (b.raise .indexOutOfRange)
  else .next { b with bitbuf := b.bitbuf ++ [b.bit] }.succeed

/-- BGET (R132): `BIT` <- element `IDX` of BITBUF; `IndexOutOfRange` where there is none. -/
def Block.cmdBget (b : Block P) : Result P :=
  if b.bitbuf.length ≤ b.idx.toNat then .next (b.raise .indexOutOfRange)
  else .next { b with bit := bitAt b.bitbuf b.idx.toNat }.succeed

end

/-- BCLR on the machine. -/
def execBclr (s : State) : Host.Outcome State Fault Refusal := s.run Block.cmdBclr

/-- BPUSH on the machine. -/
def execBpush (s : State) : Host.Outcome State Fault Refusal := s.run Block.cmdBpush

/-- BGET on the machine. -/
def execBget (s : State) : Host.Outcome State Fault Refusal := s.run Block.cmdBget

end Sys2Proof.Machine
end

