-- ==== Sys2Proof/Machine/Dispatch.lean ====
section
/-! DEFINITION. Which meaning each command runs: one arm per row of spec/opcode_table.json. -/

namespace Sys2Proof.Machine

/-- The effect of one command, issued by `CMD` (spec/00_scope.md R13). -/
def exec (i : Instr) (s : State) : Host.Outcome State Fault Refusal :=
  match i with
  | .nop => Sys2Proof.Machine.execNop s
  | .eclr => Sys2Proof.Machine.execEclr s
  | .bclr => Sys2Proof.Machine.execBclr s
  | .bpush => Sys2Proof.Machine.execBpush s
  | .bget => Sys2Proof.Machine.execBget s
  | .bytes2bits => Sys2Proof.Machine.execBytes2bits s
  | .bits2bytes => Sys2Proof.Machine.execBits2bytes s
  | .bits2bytesl => Sys2Proof.Machine.execBits2bytesl s
  | .bits2bytesd => Sys2Proof.Machine.execBits2bytesd s
  | .hwidth => Sys2Proof.Machine.execHwidth s
  | .validate => Sys2Proof.Machine.execValidate s
  | .enchdr => Sys2Proof.Machine.execEnchdr s
  | .dechdr => Sys2Proof.Machine.execDechdr s
  | .map => Sys2Proof.Machine.execMap s
  | .rdlsb => Sys2Proof.Machine.execRdlsb s
  | .wrlsb => Sys2Proof.Machine.execWrlsb s
  | .readall => Sys2Proof.Machine.execReadall s
  | .wrbits => Sys2Proof.Machine.execWrbits s
  | .hide => Sys2Proof.Machine.execHide s
  | .reveal => Sys2Proof.Machine.execReveal s

end Sys2Proof.Machine
end

