-- ==== Sys2Proof/Machine/Command.lean ====
section
/-! DEFINITION. The commands for any choice of the parameters (spec/00_scope.md R8). `exec` is this table with the
parameters of Config. -/

namespace Sys2Proof.Machine

/-- The effect of one command, issued by `CMD` (spec/00_scope.md R13). -/
def System.command {P : Params} (i : Instr) (m : System P) : Host.Outcome (System P) Fault Refusal :=
  match i with
  | .nop => m.run Block.cmdNop
  | .eclr => m.run Block.cmdEclr
  | .bclr => m.run Block.cmdBclr
  | .bpush => m.run Block.cmdBpush
  | .bget => m.run Block.cmdBget
  | .bytes2bits => m.run Block.cmdBytes2bits
  | .bits2bytes => m.run Block.cmdBits2bytes
  | .bits2bytesl => m.run Block.cmdBits2bytesl
  | .bits2bytesd => m.run Block.cmdBits2bytesd
  | .hwidth => m.run Block.cmdHwidth
  | .validate => m.run Block.cmdValidate
  | .enchdr => m.run Block.cmdEnchdr
  | .dechdr => m.run Block.cmdDechdr
  | .map => m.run Block.cmdMap
  | .rdlsb => m.run Block.cmdRdlsb
  | .wrlsb => m.run Block.cmdWrlsb
  | .readall => m.run Block.cmdReadall
  | .wrbits => m.runDrawing Block.cmdWrbits
  | .hide => m.runDrawing Block.cmdHide
  | .reveal => m.run Block.cmdReveal

end Sys2Proof.Machine
end

