-- ==== Sys2Proof/Machine/HostPort.lean ====
section
/-! DEFINITION. The outside agent's moves (spec/00_scope.md R7, R13; spec/10_state.md R41; spec/30_encoding.md R105,
R106; spec/70_reset_and_hazards.md R250), each made between two commands, and a command taken by its word. -/

namespace Sys2Proof.Machine

/-- How a command runs on the machine: what the transactions below take as `run`. -/
abbrev Runner (P : Params) := Instr → System P → Host.Outcome (System P) Fault Refusal

section
variable {P : Params} (run : Runner P)

/-- `CMD w` (R13): the command the word stands for runs to its end; a reserved word raises `IllegalCommand` (R102,
R227). The word is looked up before anything else (R232). -/
def issueCommand (w : Byte) (m : System P) : Host.Outcome (System P) Fault Refusal :=
  match decode [w] with
  | .command i _ => run i m
  | .illegalCommand _ _ => .next { m with toBlock := m.toBlock.raise .illegalCommand }
  | .noWord => .next m

/-- One transaction. -/
def performTxn (t : Txn P) (m : System P) : Host.Outcome (System P) Fault Refusal :=
  match t with
  | .wr v => .next { m with toBlock := m.toBlock.writeReg v }
  | .rd r => .next { m with reply := some (.reg (m.toBlock.readReg r)) }
  | .cmd w => issueCommand run w m
  | .payWrite a v => .next { m with toBlock := m.toBlock.writePay a.toNat v }
  | .payRead a => .next { m with reply := some (.byte (m.toBlock.readPay a.toNat)) }
  | .covWrite i v =>
    if i.toNat < m.toBlock.cap then .next { m with toBlock := m.toBlock.writeCov i.toNat v } else .fault .noSuchSlot
  | .covRead i =>
    if i.toNat < m.toBlock.cap then .next { m with reply := some (.sample (m.toBlock.readCov i.toNat)) }
    else .fault .noSuchSlot
  | .reset => .next { m with toBlock := Block.afterReset m.pay m.cov }

/-- The transactions a directive stands for (R106), in order, at the block as it is when the line is reached. -/
def Block.expand (b : Block P) : Directive P → List (Txn P)
  | .cfg w h c => [.wr (.width w), .wr (.height h), .wr (.channels c)]
  | .fill f => [.wr (.mode (modeOf b.bilevel (fillCode f)))]
  | .bilevel x => [.wr (.mode (modeOf x (modeFill b.mode)))]
  | .payload bs =>
    (bs.zipIdx.map fun p => .payWrite (BitVec.ofNat P.capw p.2) p.1) ++ [.wr (.plen (BitVec.ofNat P.capw bs.length))]
  | .cover vs => vs.zipIdx.map fun p => .covWrite (BitVec.ofNat P.capw p.2) p.1
  | .coverAll v => (List.range b.cap).map fun i => .covWrite (BitVec.ofNat P.capw i) v
  | .pushBits bs => bs.flatMap fun x => [.wr (.bit x), .cmd (encodeWord .bpush)]

/-- One line of the host program. A directive becomes the transactions it stands for, which are taken next; one that
breaks R106's condition on its length is no line of the notation (log 9). -/
def performLine (l : Line P) (m : System P) : Host.Outcome (System P) Fault Refusal :=
  match l with
  | .txn t => performTxn run t m
  | .directive d =>
    if d.wellFormed m.toBlock.cap then .next { m with host := (m.toBlock.expand d).map Line.txn ++ m.host }
    else .refused .illFormedDirective

/-- Takes the next line of the host program; with none, the block is idle and keeps all its state (R245). -/
def takeLine (m : System P) : Host.Outcome (System P) Fault Refusal :=
  match m.host with
  | [] => .next m
  | l :: rest => performLine run l { m with host := rest }

end

/-- Several commands, one after another, as the host issues them (R217); stops where one stops. -/
def runCommands : List Instr → State → Host.Outcome State Fault Refusal
  | [], s => .next s
  | i :: is, s =>
    match exec i s with
    | .next t => runCommands is t
    | .fault e => .fault e
    | .refused r => .refused r

end Sys2Proof.Machine
end

