-- ==== Sys2Proof/Machine/Step.lean ====
section
/-! DEFINITION. One step of the machine. The block has no program counter and no instruction fetch (spec/10_state.md
R38): a step takes the next line of the host's program. -/

namespace Sys2Proof.Machine

/-- One step, for any choice of the parameters (R8): the outside agent's next line, a command run to its end if the line
is one (R13, R70). -/
def System.step {P : Params} (m : System P) : Host.Outcome (System P) Fault Refusal := takeLine System.command m

/-- One step of the machine with the parameters of Config; its commands are those of `exec`. -/
def step (s : State) : Host.Outcome State Fault Refusal :=
  mapNext State.mk (takeLine (fun i m => mapNext State.toSystem (exec i (State.mk m))) s.toSystem)

/-- `s` with the command word `w` as the host's next line, which is where `step` takes its next command from (log 6).
A command word is 8 bits, whatever `nbits` says. -/
def State.withFetchWord (s : State) (_nbits w : Nat) : State :=
  { s with host := .txn (.cmd (BitVec.ofNat 8 w)) :: s.host }

end Sys2Proof.Machine
end

