-- ==== Sys2Proof/Machine/Access.lean ====
section
/-! DEFINITION. Which elements of PAY and COV a command touches, in order (spec/20_memory.md R60, R70, R71). The
commands' meanings do not use this table; statements relate the two. -/

namespace Sys2Proof.Machine

/-- The four kinds of access of R60. -/
inductive Access where
  | payRead (a : Nat)
  | payWrite (a : Nat)
  | covRead (i : Nat)
  | covWrite (i : Nat)
  deriving DecidableEq, Repr

/-- Read-modify-writes of the `n` slots from 0 upward (R64): each slot is read, then written. -/
def slotWrites (n : Nat) : List Access := (List.range n).flatMap fun i => [.covRead i, .covWrite i]

/-- How many slots a stream of `n` bits makes a filling command write, on a cover of `cap` slots (R180 to R182). -/
def slotsWritten (f : Fill) (n cap : Nat) : Nat :=
  match f with
  | .none => n
  | .zeroes => cap
  | .random => cap

/-- The table of R71: the accesses of one command at a block, in order. A command that faults makes no write, and only
REVEAL reads anything before it can fault (R231). A decoder command writes the PAY addresses there are (R67; log 5). -/
def Block.accesses {P : Params} (b : Block P) : Instr → List Access
  | .nop => []
  | .eclr => []
  | .bclr => []
  | .bpush => []
  | .bget => []
  | .bytes2bits => (List.range b.plen.toNat).map .payRead
  | .bits2bytes => (List.range (min (availableBits b.bitbuf none / 8) (2 ^ P.capw))).map .payWrite
  | .bits2bytesl => (List.range (min (availableBits b.bitbuf (some b.limit.toNat) / 8) (2 ^ P.capw))).map .payWrite
  | .bits2bytesd => (List.range (availableBits b.bitbuf (some (8 * b.dlen.toNat)) / 8)).map .payWrite
  | .hwidth => []
  | .validate => []
  | .enchdr => []
  | .dechdr => []
  | .map => []
  | .rdlsb => if b.idx.toNat < b.cap then [.covRead b.idx.toNat] else []
  | .wrlsb => if b.idx.toNat < b.cap then [.covRead b.idx.toNat, .covWrite b.idx.toNat] else []
  | .readall => (List.range b.cap).map .covRead
  | .wrbits =>
    match b.fill? with
    | none => []
    | some f => if b.bitbuf.length ≤ b.cap then slotWrites (slotsWritten f b.bitbuf.length b.cap) else []
  | .hide =>
    match b.fill?, capacityCheck b.plen.toNat b.cap (headerWidth b.cap) with
    | some f, none =>
      (List.range b.plen.toNat).map .payRead ++
        slotWrites (slotsWritten f (headerWidth b.cap + 8 * b.plen.toNat) b.cap)
    | _, _ => []
  | .reveal =>
    let h := headerWidth b.cap
    let len := decodeHeader (b.readLsbs 0 h)
    if h + 8 * len ≤ b.cap then
      (List.range (h + 8 * len)).map .covRead ++ (List.range len).map .payWrite
    else (List.range h).map .covRead

end Sys2Proof.Machine
end

