-- ==== Sys2Proof/Safety.lean ====
section
/-! DEFINITION. What claims are stated in: the invariant of the block, the tables of spec/10_state.md R21 and
spec/60_exceptions.md R220 and R232, and the contents a stream and its tail give the cover. -/

namespace Sys2Proof.Machine

/-! ### The invariant -/

/-- The codes `STATUS.ERR` ranges over: 0, 1, 2, 4, 5, 6, 7, 8 (spec/93_implementation_defined.md U14; R220, R224). -/
def legalErr (e : BitVec 4) : Bool := decide (e ≠ 3) && decide (e.toNat ≤ 8)

/-- The invariant of the block: both spaces in canonical form and inside their address ranges (R39, R40), BITBUF no
longer than `BLEN` can count (R9, R35), `ERR` a code the block produces (U14), and a non-zero `ERR` only with `FAULT`
set (R226, R36). -/
structure Block.Inv {P : Params} (b : Block P) : Prop where
  pay_wf : Memory.wf b.pay
  cov_wf : Memory.wf b.cov
  pay_below : Memory.below b.pay (2 ^ P.capw)
  cov_below : Memory.below b.cov (2 ^ P.capw)
  bitbuf_bound : b.bitbuf.length < 2 ^ P.blw
  err_legal : legalErr b.err = true
  err_sticky : b.err ≠ 0 → b.faultFlag = 1

/-! ### Success and faults -/

/-- The last command succeeded: `STATUS.ERR` = 0 (R36). -/
abbrev Block.ok {P : Params} (b : Block P) : Prop := b.err = 0

/-- The machine after a command that raised `c` (R226). -/
def State.raised (s : State) (c : Cause) : State := { s with toBlock := s.toBlock.raise c }

/-- The causes each command may raise, in the order it tests them: R220's column "raised by" and R232. -/
def mayRaise : Instr → List Cause
  | .nop => []
  | .eclr => []
  | .bclr => []
  | .bpush => [.indexOutOfRange]
  | .bget => [.indexOutOfRange]
  | .bytes2bits => []
  | .bits2bytes => []
  | .bits2bytesl => []
  | .bits2bytesd => []
  | .hwidth => []
  | .validate => [.illegalConfig, .payloadTooLargeForCover, .payloadTooLargeForHeader]
  | .enchdr => [.illegalConfig, .payloadTooLargeForHeader, .indexOutOfRange]
  | .dechdr => [.illegalConfig, .truncatedCover]
  | .map => [.indexOutOfRange]
  | .rdlsb => [.indexOutOfRange]
  | .wrlsb => [.indexOutOfRange]
  | .readall => []
  | .wrbits => [.illegalConfig, .bitsExceedCapacity]
  | .hide => [.illegalConfig, .payloadTooLargeForCover, .payloadTooLargeForHeader]
  | .reveal => [.truncatedCover]

/-- The commands that write each register: R21's column "written by". -/
def writersOf : Reg → List Instr
  | .width => []
  | .height => []
  | .channels => []
  | .mode => []
  | .cap => []
  | .hw => [.hwidth, .hide, .reveal]
  | .plen => []
  | .dlen => [.dechdr, .reveal]
  | .olen => [.bits2bytes, .bits2bytesl, .bits2bytesd, .reveal]
  | .limit => []
  | .idx => []
  | .px => [.map]
  | .py => [.map]
  | .pch => [.map]
  | .bit => [.rdlsb, .bget]
  | .blen => [.bytes2bits, .enchdr, .readall, .dechdr, .bclr, .bpush, .hide, .reveal]
  | .status =>
    [.nop, .eclr, .bclr, .bpush, .bget, .bytes2bits, .bits2bytes, .bits2bytesl, .bits2bytesd, .hwidth, .validate,
      .enchdr, .dechdr, .map, .rdlsb, .wrlsb, .readall, .wrbits, .hide, .reveal]

/-! ### The stream and the tail of the cover -/

/-- Bit `t` of the stream of the payload that stands in PAY, for a header of `h` bits: the header is the `h`-bit numeral
of `PLEN`, most significant bit first (R91); then each byte, most significant bit first (R92). -/
def Block.streamBit {P : Params} (b : Block P) (h t : Nat) : Bit :=
  if t < h then BitVec.ofNat 1 (b.plen.toNat / 2 ^ (h - 1 - t) % 2)
  else (b.readPay ((t - h) / 8)).extractLsb' (7 - (t - h) % 8) 1

/-- What the slots from `n` upward hold in `t`, after a stream of `n` bits was written to the cover of `s` (R181, R182),
by the number in `MODE.FILL` (R25, R27): with 0, no filler, as before; with 1, the zero filler, bit 0 put to 0; with 2,
the random filler, some bit put in; and nothing changes past the cover. -/
structure TailFilled (s t : State) (n : Nat) : Prop where
  no_filler : s.mode.toNat % 4 = 0 → ∀ k, n ≤ k → t.readCov k = s.readCov k
  zeroes : s.mode.toNat % 4 = 1 → ∀ k, n ≤ k → k < s.cap → t.readCov k = putBit s.bilevel (s.readCov k) 0
  random : s.mode.toNat % 4 = 2 → ∀ k, n ≤ k → k < s.cap → ∃ x, t.readCov k = putBit s.bilevel (s.readCov k) x
  past_cover : ∀ k, s.cap ≤ k → t.readCov k = s.readCov k

/-! ### What a decoder command leaves -/

/-- The end R125, R126 and R127 share, for a decoder command that gives `n` bytes: byte `k` is made of bits `8k` to
`8k+7` of BITBUF, most significant first, and goes to PAY address `k`; `OLEN` is `n`; PAY addresses `n` and above,
BITBUF and everything else but STATUS are unchanged. -/
def DecoderDelivers (i : Instr) (s : State) (n : Nat) : Prop :=
  ∃ m v, exec i s = .next { s with pay := m, olen := v, status := statusOf s.faultFlag 0 } ∧ v.toNat = n ∧
    (∀ k, n ≤ k → { s with pay := m }.readPay k = s.readPay k) ∧
    ∀ k, k < n → ({ s with pay := m }.readPay k).toNat =
      (bitAt s.bitbuf (8 * k)).toNat * 128 + (bitAt s.bitbuf (8 * k + 1)).toNat * 64 +
        (bitAt s.bitbuf (8 * k + 2)).toNat * 32 + (bitAt s.bitbuf (8 * k + 3)).toNat * 16 +
        (bitAt s.bitbuf (8 * k + 4)).toNat * 8 + (bitAt s.bitbuf (8 * k + 5)).toNat * 4 +
        (bitAt s.bitbuf (8 * k + 6)).toNat * 2 + (bitAt s.bitbuf (8 * k + 7)).toNat

end Sys2Proof.Machine
end

