-- ==== Sys2Proof/Certificates/Slice0/Obligations.lean ====
section
/-! DEFINITION. The statements about the machine, for the provers. Each docstring names the rule of spec/ it formalises.
Statements about `exec` and `step` are about the machine of the host's interface, which stands at the parameters of Config
(log 1); statements with a `P : Params` hold for every choice of them (spec/00_scope.md R8). -/

open Sys2Proof Sys2Proof.Machine

/-! ### The command word and one step -/

/-- R101: every command is selected by the full 8-bit value, and by no other. -/
def Obligations.OpcodeMapIsTheTableOfCommands : Prop :=
  ∀ (w : Byte) (i : Instr), decodeWord w = some i ↔
    (w, i) ∈ ([(0x00, .nop), (0x01, .eclr), (0x02, .bclr), (0x03, .bpush), (0x04, .bget), (0x10, .bytes2bits),
      (0x11, .bits2bytes), (0x12, .bits2bytesl), (0x13, .bits2bytesd), (0x20, .hwidth), (0x21, .validate),
      (0x22, .enchdr), (0x23, .dechdr), (0x30, .map), (0x31, .rdlsb), (0x32, .wrlsb), (0x33, .readall),
      (0x34, .wrbits), (0x40, .hide), (0x41, .reveal)] : List (Byte × Instr))

/-- R101, R104: decoding the encoding of a command gives it back and consumes its one byte; and a word that decodes to a
command is that command's encoding. -/
def Obligations.DecodeAndEncodeAgree : Prop :=
  (∀ (i : Instr) (rest : List Byte), i.wellFormed = true → decode (encode i ++ rest) = .command i rest) ∧
    (∀ (w : Byte) (i : Instr), decodeWord w = some i → encode i = [w])

/-- R102, R227: exactly the listed 236 words are reserved, and issuing one raises `IllegalCommand` and changes nothing
but STATUS. -/
def Obligations.ReservedWordsRaiseIllegalCommand : Prop :=
  (∀ w : Byte, decodeWord w = none ↔
    (0x05#8 ≤ w ∧ w ≤ 0x0F#8) ∨ (0x14#8 ≤ w ∧ w ≤ 0x1F#8) ∨ (0x24#8 ≤ w ∧ w ≤ 0x2F#8) ∨ (0x35#8 ≤ w ∧ w ≤ 0x3F#8) ∨
      (0x42#8 ≤ w ∧ w ≤ 0x4F#8) ∨ (0x50#8 ≤ w ∧ w ≤ 0xFF#8)) ∧
    ((List.range 256).filter fun n => (decodeWord (BitVec.ofNat 8 n)).isNone).length = 236 ∧
    ∀ (s : State) (w : Byte) (rest : List (Line Config.params)), s.host = .txn (.cmd w) :: rest → decodeWord w = none →
      step s = .next { s with host := rest, status := statusOf 1 5 }

/-- R13, R70: when the host's next line issues a word that decodes to a command, the step is that command's effect, the
line taken; so a command placed by `withFetchWord` is exactly what the next step runs. -/
def Obligations.StepRunsTheIssuedCommand : Prop :=
  (∀ (s : State) (w : Byte) (i : Instr) (rest : List (Line Config.params)), s.host = .txn (.cmd w) :: rest →
    decode [w] = .command i [] → step s = exec i { s with host := rest }) ∧
    (∀ (s : State) (i : Instr), step (s.withFetchWord 8 (encodeWord i).toNat) = exec i s)

/-- R8: commands, step and reset take the parameters as an argument (`System.command`, `System.step`, `System.reset`), and
the machine of the host's interface, which has no argument, is theirs at the parameters of Config (the model's form, log 1). -/
def Obligations.TheMachineTakesItsParameters : Prop :=
  (∀ (i : Instr) (s : State), exec i s = mapNext State.mk (System.command i s.toSystem)) ∧
    (∀ s : State, step s = mapNext State.mk (System.step s.toSystem)) ∧
    State.reset.toSystem = System.reset Config.params

/-- R245: between commands the block is idle and keeps all its state. -/
def Obligations.IdleBlockKeepsItsState : Prop := ∀ s : State, s.host = [] → step s = .next s

/-! ### Reset and the host's accesses -/

/-- R43, R250: after reset every register reads 0 and BITBUF is empty; and a reset between commands puts every register and
BITBUF to those values and does nothing to PAY or COV. That it keeps the model's own fields `reply` and `draws` is the
model's choice (logs 7 and 3). -/
def Obligations.ResetZeroesRegistersKeepsSpaces : Prop :=
  ((∀ r : Reg, regNat (State.reset.readReg r) = 0) ∧ State.reset.bitbuf = []) ∧
    ∀ (s : State) (rest : List (Line Config.params)), s.host = .txn .reset :: rest →
      ∃ t, step s = .next t ∧ (∀ r : Reg, regNat (t.readReg r) = 0) ∧ t.bitbuf = [] ∧ t.pay = s.pay ∧ t.cov = s.cov ∧
        t.host = rest ∧ t.reply = s.reply ∧ t.draws = s.draws

/-- R41: `RD` returns the register's value and changes nothing of the block; `WR` stores the value in a register the host
may write, is ignored for a read-only one, and touches no other register (`CAP`, which follows the dimensions, aside),
nor STATUS, BITBUF, PAY or COV. That RD's answer stands in `reply`, and that WR keeps `reply` and `draws`, is the model's
choice (logs 7 and 3). -/
def Obligations.HostRegisterAccess : Prop :=
  (∀ (s : State) (r : Reg) (rest : List (Line Config.params)), s.host = .txn (.rd r) :: rest →
    step s = .next { s with host := rest, reply := some (.reg (s.readReg r)) }) ∧
  (∀ (s : State) (v : RegValue Config.params) (rest : List (Line Config.params)), s.host = .txn (.wr v) :: rest →
    ∃ t, step s = .next t ∧
      (hostMayWrite (regOf v) = true → t.readReg (regOf v) = v) ∧
      (hostMayWrite (regOf v) = false → t = { s with host := rest }) ∧
      (∀ r : Reg, r ≠ regOf v → (r = .cap → regOf v ∉ [Reg.width, Reg.height, Reg.channels]) →
        t.readReg r = s.readReg r) ∧
      t.status = s.status ∧ t.bitbuf = s.bitbuf ∧ t.pay = s.pay ∧ t.cov = s.cov ∧ t.host = rest ∧ t.reply = s.reply ∧
      t.draws = s.draws)

/-- R24, R35: `CAP` always reads as `WIDTH * HEIGHT * CHANNELS`, exactly, whatever the parameters; it fits `CAPW` bits
(R9, an inference the spec marks as its own), and a write to it is ignored; `BLEN` reads `len(BITBUF)` wherever BITBUF is
not longer than the block makes it (log 13: BITBUF's type has no bound of its own). -/
def Obligations.CapAndBlenAreViews : Prop :=
  ∀ (P : Params) (b : Block P),
    (regNat (b.readReg .cap) = b.width.toNat * b.height.toNat * b.channels.toNat ∧
      b.width.toNat * b.height.toNat * b.channels.toNat < 2 ^ P.capw ∧ ∀ v, b.writeReg (.cap v) = b) ∧
    (b.bitbuf.length < 2 ^ P.blw → regNat (b.readReg .blen) = b.bitbuf.length)

/-- R25 to R27, R36: which bits of STATUS and MODE their fields are, by the numbers: STATUS is 16 times FAULT plus ERR; MODE
is 4 times BILEVEL plus FILL, and FILL 0, 1, 2 names no filler, the zero filler, the random filler, and 3 none of them. -/
def Obligations.StatusAndModeLayout : Prop :=
  ∀ (P : Params) (b : Block P),
    b.status.toNat = 16 * b.faultFlag.toNat + b.err.toNat ∧
    (∀ f e, (statusOf f e).toNat = 16 * f.toNat + e.toNat) ∧
    b.mode.toNat = 4 * b.bilevel.toNat + b.mode.toNat % 4 ∧
    (b.fill? = some .none ↔ b.mode.toNat % 4 = 0) ∧
    (b.fill? = some .zeroes ↔ b.mode.toNat % 4 = 1) ∧
    (b.fill? = some .random ↔ b.mode.toNat % 4 = 2) ∧
    (b.fill? = none ↔ b.mode.toNat % 4 = 3)

/-- R39, R40, R70: what the outside agent writes to an element is what the element then holds, and no other element
changes; a read returns it. A COV index at or above `CAP` names nothing: the model stops (log 8). -/
def Obligations.OutsideAccessToTheSpaces : Prop :=
  ∀ (s : State) (rest : List (Line Config.params)) (a : BitVec Config.params.capw) (v : Byte)
    (x : BitVec Config.params.sw),
    (s.host = .txn (.payWrite a v) :: rest → ∃ m, step s = .next { s with host := rest, pay := m } ∧
      ∀ k, { s with host := rest, pay := m }.readPay k = if k = a.toNat then v else s.readPay k) ∧
    (s.host = .txn (.payRead a) :: rest →
      step s = .next { s with host := rest, reply := some (.byte (s.readPay a.toNat)) }) ∧
    (s.host = .txn (.covWrite a x) :: rest → a.toNat < s.cap → ∃ m, step s = .next { s with host := rest, cov := m } ∧
      ∀ k, { s with host := rest, cov := m }.readCov k = if k = a.toNat then x else s.readCov k) ∧
    (s.host = .txn (.covRead a) :: rest → a.toNat < s.cap →
      step s = .next { s with host := rest, reply := some (.sample (s.readCov a.toNat)) }) ∧
    (s.host = .txn (.covWrite a x) :: rest ∨ s.host = .txn (.covRead a) :: rest → s.cap ≤ a.toNat →
      step s = .fault .noSuchSlot)

/-- R106: the directive `PAYLOAD b0 ... b(n-1)` runs to a state in which PAY address `k` holds byte `k` and `PLEN` is
`n`, every other PAY address and everything else as before. The number of steps is the model's (log 9). -/
def Obligations.PayloadDirectiveLoadsThePayload : Prop :=
  ∀ (s : State) (bs : Payload) (rest : List (Line Config.params)),
    s.host = .directive (.payload bs) :: rest → bs.length < 2 ^ Config.params.capw →
    ∃ m n, Sys2Proof.core.run (bs.length + 2) s = .next { s with host := rest, pay := m, plen := n } ∧
      n.toNat = bs.length ∧
      ∀ k, { s with host := rest, pay := m, plen := n }.readPay k = if k < bs.length then bs.getD k 0 else s.readPay k

/-- R106, R131: the directive `PUSHBITS` appends its bits to BITBUF in order, where BITBUF has room for them. The number of
steps is the model's: one to replace the directive by its transactions, then one for each of those (log 9). -/
def Obligations.PushBitsDirectiveAppends : Prop :=
  ∀ (s : State) (bs : BitSeq) (rest : List (Line Config.params)),
    s.host = .directive (.pushBits bs) :: rest → s.bitbuf.length + bs.length < 2 ^ Config.params.blw →
    ∃ t, Sys2Proof.core.run (2 * bs.length + 1) s = .next t ∧ t.bitbuf = s.bitbuf ++ bs ∧ t.host = rest ∧
      t.pay = s.pay ∧ t.cov = s.cov ∧ ∀ r : Reg, r ∉ [Reg.bit, Reg.blen, Reg.status] → t.readReg r = s.readReg r

/-- R106, R25 to R27: `CFG`, `FILL`, `BILEVEL`: the registers they write, by the numbers in `MODE`, the other field of `MODE`
kept; after `FILL f` the block's filler mode is `f`. The number of steps is the model's: one to replace the directive by its
transactions, then one for each of those (log 9). -/
def Obligations.ConfigurationDirectives : Prop :=
  ∀ (s : State) (rest : List (Line Config.params)) (w h : BitVec Config.params.dimw) (c : BitVec Config.params.chw)
    (f : Fill) (x : Bit),
    (s.host = .directive (.cfg w h c) :: rest →
      Sys2Proof.core.run 4 s = .next { s with host := rest, width := w, height := h, channels := c }) ∧
    (s.host = .directive (.fill f) :: rest →
      ∃ m, Sys2Proof.core.run 2 s = .next { s with host := rest, mode := m } ∧ m.toNat / 4 = s.mode.toNat / 4 ∧
        (m.toNat % 4 = match f with | .none => 0 | .zeroes => 1 | .random => 2) ∧
        { s with host := rest, mode := m }.fill? = some f) ∧
    (s.host = .directive (.bilevel x) :: rest →
      ∃ m, Sys2Proof.core.run 2 s = .next { s with host := rest, mode := m } ∧ m.toNat % 4 = s.mode.toNat % 4 ∧
        m.toNat / 4 = x.toNat)

/-- R106: `COVER` with one sample for each slot runs to a state in which slot `k` holds sample `k`, and `COVERALL v` to one in
which every slot below `CAP` holds `v`; samples past `CAP` and everything else are as before. The number of steps is the
model's, and so is the refusal of a `COVER` of another length, which is no line of the notation (log 9). -/
def Obligations.CoverDirectivesLoadTheCover : Prop :=
  ∀ (s : State) (vs : List (BitVec Config.params.sw)) (v : BitVec Config.params.sw) (rest : List (Line Config.params)),
    (s.host = .directive (.cover vs) :: rest → vs.length = s.cap →
      ∃ m, Sys2Proof.core.run (s.cap + 1) s = .next { s with host := rest, cov := m } ∧
        ∀ k, { s with host := rest, cov := m }.readCov k = if k < s.cap then vs.getD k 0 else s.readCov k) ∧
    (s.host = .directive (.cover vs) :: rest → vs.length ≠ s.cap → step s = .refused .illFormedDirective) ∧
    (s.host = .directive (.coverAll v) :: rest →
      ∃ m, Sys2Proof.core.run (s.cap + 1) s = .next { s with host := rest, cov := m } ∧
        ∀ k, { s with host := rest, cov := m }.readCov k = if k < s.cap then v else s.readCov k)

/-! ### Faults -/

/-- R220, R226, R36: raising a cause writes its code to `ERR`, bits [3:0] of STATUS, and 1 to `FAULT`, bit [4], whatever
STATUS was, and changes nothing else. -/
def Obligations.RaiseWritesStatusOnly : Prop :=
  ∀ (P : Params) (b : Block P) (c : Cause),
    b.raise c = { b with status := (b.raise c).status } ∧ (b.raise c).faultFlag = 1 ∧
      (b.raise c).status.toNat = 16 + (b.raise c).err.toNat ∧
      (b.raise c).err.toNat = match c with
        | .payloadTooLargeForCover => 1
        | .payloadTooLargeForHeader => 2
        | .unsupportedCoverFormat => 3
        | .truncatedCover => 4
        | .illegalCommand => 5
        | .illegalConfig => 6
        | .indexOutOfRange => 7
        | .bitsExceedCapacity => 8

/-- R226: a command that ends with a fault code in `ERR` has changed nothing but STATUS, and has set `FAULT`. -/
def Obligations.FaultingCommandChangesOnlyStatus : Prop :=
  ∀ (i : Instr) (s t : State), exec i s = .next t → t.err ≠ 0 → t = { s with status := t.status } ∧ t.faultFlag = 1

/-- R220, R232: each command raises only the causes the tables give it. -/
def Obligations.CommandsRaiseOnlyTheirCauses : Prop :=
  ∀ (i : Instr) (s t : State), exec i s = .next t → t.err ≠ 0 → ∃ c ∈ mayRaise i, t = s.raised c

/-- R36: every command writes `ERR`; `FAULT` is sticky, set by a faulting command, kept by a succeeding one, and cleared
by ECLR alone among the commands. -/
def Obligations.FaultFlagIsSticky : Prop :=
  ∀ (i : Instr) (s t : State), exec i s = .next t →
    (i ≠ .eclr → (t.faultFlag = 1 ↔ s.faultFlag = 1 ∨ t.err ≠ 0)) ∧ (i = .eclr → t.err = 0 ∧ t.faultFlag = 0)

/-- R237: a run without ECLR that ends with `FAULT` = 0 had no fault anywhere in it. -/
def Obligations.RunEndingWithoutFaultHadNone : Prop :=
  ∀ (before after : List Instr) (s m t : State), Instr.eclr ∉ before → Instr.eclr ∉ after → before ≠ [] →
    runCommands before s = .next m → runCommands after m = .next t → t.faultFlag = 0 → m.err = 0

/-- R217, R226: every command comes to its end from every state, faulting or not, and the block takes the next one; for
every choice of the parameters. -/
def Obligations.EveryCommandCompletes : Prop :=
  (∀ (i : Instr) (s : State), ∃ t, exec i s = .next t) ∧
    ∀ (P : Params) (i : Instr) (m : System P), ∃ t, System.command i m = .next t

/-! ### Control and the stream port -/

/-- R215, R216: NOP puts `ERR` to 0 and keeps `FAULT`; ECLR clears both; neither changes anything else. -/
def Obligations.NopAndEclr : Prop :=
  (encodeWord .nop = 0x00 ∧ ∀ s : State, exec .nop s = .next { s with status := statusOf s.faultFlag 0 }) ∧
    (encodeWord .eclr = 0x01 ∧ ∀ s : State, exec .eclr s = .next { s with status := statusOf 0 0 })

/-- R130, R131, R132: BCLR empties BITBUF, so that `BLEN` reads 0; BPUSH appends `BIT`, and raises `IndexOutOfRange`
where BITBUF has 2^BLW - 1 bits; BGET reads the element `IDX` of BITBUF into `BIT`, and raises `IndexOutOfRange` where
there is none. -/
def Obligations.StreamPortCommands : Prop :=
  (encodeWord .bclr = 0x02 ∧ encodeWord .bpush = 0x03 ∧ encodeWord .bget = 0x04) ∧ ∀ s : State,
    (∃ t, exec .bclr s = .next t ∧ t = { s with bitbuf := [], status := statusOf s.faultFlag 0 } ∧
      regNat (t.readReg .blen) = 0) ∧
    (s.bitbuf.length = 2 ^ Config.params.blw - 1 → exec .bpush s = .next (s.raised .indexOutOfRange)) ∧
    (s.bitbuf.length ≠ 2 ^ Config.params.blw - 1 →
      exec .bpush s = .next { s with bitbuf := s.bitbuf ++ [s.bit], status := statusOf s.faultFlag 0 }) ∧
    (s.bitbuf.length ≤ s.idx.toNat → exec .bget s = .next (s.raised .indexOutOfRange)) ∧
    (∀ h : s.idx.toNat < s.bitbuf.length,
      exec .bget s = .next { s with bit := s.bitbuf[s.idx.toNat], status := statusOf s.faultFlag 0 })

/-! ### The codec -/

/-- R121, R120: BYTES2BITS replaces BITBUF by the `8*PLEN` bits of the payload, each byte's most significant bit first. -/
def Obligations.Bytes2BitsMakesTheBits : Prop :=
  encodeWord .bytes2bits = 0x10 ∧ ∀ s : State, ∃ bits : BitSeq,
    exec .bytes2bits s = .next { s with bitbuf := bits, status := statusOf s.faultFlag 0 } ∧
      bits.length = 8 * s.plen.toNat ∧
      (∀ k m, k < s.plen.toNat → m ≤ 7 → bits[8 * k + m]? = some ((s.readPay k).extractLsb' (7 - m) 1)) ∧
      regNat ({ s with bitbuf := bits, status := statusOf s.faultFlag 0 }.readReg .blen) = 8 * s.plen.toNat

/-- R122 to R127: the three decoder commands give `len // 8`, `min(len, LIMIT) // 8` and `min(len // 8, DLEN)` bytes,
wherever `OLEN` can hold the number (`DecoderCountPastTheRegister` is the other case). -/
def Obligations.DecoderCommandsDeliverBytes : Prop :=
  (encodeWord .bits2bytes = 0x11 ∧ encodeWord .bits2bytesl = 0x12 ∧ encodeWord .bits2bytesd = 0x13) ∧
  ∀ s : State,
    (s.bitbuf.length / 8 < 2 ^ Config.params.capw → DecoderDelivers .bits2bytes s (s.bitbuf.length / 8)) ∧
    (min s.bitbuf.length s.limit.toNat / 8 < 2 ^ Config.params.capw →
      DecoderDelivers .bits2bytesl s (min s.bitbuf.length s.limit.toNat / 8)) ∧
    DecoderDelivers .bits2bytesd s (min (s.bitbuf.length / 8) s.dlen.toNat)

/-- R125, R126, R232, where the decoded bytes are 2^CAPW or more, a number `OLEN` cannot hold: BITS2BYTES and BITS2BYTESL
complete, byte `k` of BITBUF at PAY address `k` for every PAY address there is, nothing else changed but `OLEN` and STATUS.
That `OLEN` then holds some value, and that a byte past the last PAY address goes nowhere, are the MODEL's choices where
the spec is silent (logs 4 and 5). -/
def Obligations.DecoderCountPastTheRegister : Prop :=
  ∀ (i : Instr) (s : State) (n : Nat),
    (i = .bits2bytes ∧ n = s.bitbuf.length / 8) ∨ (i = .bits2bytesl ∧ n = min s.bitbuf.length s.limit.toNat / 8) →
    2 ^ Config.params.capw ≤ n →
      ∃ m v, exec i s = .next { s with pay := m, olen := v, status := statusOf s.faultFlag 0 } ∧
        ∀ k, { s with pay := m }.readPay k =
          if k < 2 ^ Config.params.capw then byteFrom s.bitbuf k else s.readPay k

/-- R129: decoding undoes encoding, with no limit or any limit of at least `8*len(P)` bits; encoding undoes decoding but
for the partial last group. -/
def Obligations.CodecFunctionsAreInverse : Prop :=
  (∀ p : Payload, bitsToBytes (bytesToBits p) none = p) ∧
    (∀ (p : Payload) (l : Nat), 8 * p.length ≤ l → bitsToBytes (bytesToBits p) (some l) = p) ∧
    ∀ s : BitSeq, bytesToBits (bitsToBytes s none) = s.take (8 * (s.length / 8))

/-! ### The header width, the check and the header -/

/-- R142, R147: the header width does not decrease as the capacity grows, is `h >= 1` exactly for
`8*2^(h-1) + 8 <= capacity <= 8*2^h + 7`, is at most the capacity, and with the default parameters is at most 32,
reached at the largest capacity. -/
def Obligations.HeaderWidthProperties : Prop :=
  (∀ c d : Nat, c ≤ d → headerWidth c ≤ headerWidth d) ∧
    (∀ c h : Nat, 1 ≤ h → (headerWidth c = h ↔ 8 * 2 ^ (h - 1) + 8 ≤ c ∧ c ≤ 8 * 2 ^ h + 7)) ∧
    (∀ c : Nat, headerWidth c ≤ c) ∧
    headerWidth ((2 ^ 16 - 1) ^ 2 * 7) = 32 ∧ ∀ b : Block Config.params, headerWidth b.cap ≤ 32

/-- R140, R141, R143: HWIDTH puts into `HW` the number H with H = 0 where `CAP // 8 <= 1`, and else the least H with
`2^H >= CAP // 8`; nothing else changes but STATUS. -/
def Obligations.HwidthComputesTheHeaderWidth : Prop :=
  encodeWord .hwidth = 0x20 ∧ ∀ s : State, ∃ v, exec .hwidth s = .next { s with hw := v, status := statusOf s.faultFlag 0 } ∧
    (s.cap / 8 ≤ 1 → v.toNat = 0) ∧
    (1 < s.cap / 8 → s.cap / 8 ≤ 2 ^ v.toNat ∧ ∀ h, s.cap / 8 ≤ 2 ^ h → v.toNat ≤ h)

/-- R145: the tests of VALIDATE in their order; it writes nothing but STATUS. -/
def Obligations.ValidateTestsInOrder : Prop :=
  encodeWord .validate = 0x21 ∧ ∀ s : State, exec .validate s = .next
    (if Config.params.capw < s.hw.toNat then s.raised .illegalConfig
    else if s.cap < 8 * s.plen.toNat + s.hw.toNat then s.raised .payloadTooLargeForCover
    else if 2 ^ s.hw.toNat ≤ s.plen.toNat then s.raised .payloadTooLargeForHeader
    else { s with status := statusOf s.faultFlag 0 })

/-- R146: with the capacity's own header width, the lengths that pass the check are exactly 0 to
`min((capacity - H) // 8, 2^H - 1)`. -/
def Obligations.LargestPayloadThatPasses : Prop :=
  ∀ len c : Nat, capacityCheck len c (headerWidth c) = none ↔
    len ≤ min ((c - headerWidth c) / 8) (2 ^ headerWidth c - 1)

/-- R148: with the capacity's own header width, the second test fails on its own exactly when the length is the capacity in
bytes, is `2^H`, and the capacity's remainder by 8 is at least `H`; that is exactly the 36 pairs listed. -/
def Obligations.HeaderTestFailsAloneForThirtySixPairs : Prop :=
  ∀ len c : Nat,
    (capacityCheck len c (headerWidth c) = some .payloadTooLargeForHeader ↔
      len = c / 8 ∧ len = 2 ^ headerWidth c ∧ headerWidth c ≤ c % 8) ∧
    (capacityCheck len c (headerWidth c) = some .payloadTooLargeForHeader ↔
      (8 ≤ c ∧ c ≤ 15 ∧ len = 1) ∨ (17 ≤ c ∧ c ≤ 23 ∧ len = 2) ∨ (34 ≤ c ∧ c ≤ 39 ∧ len = 4) ∨
        (67 ≤ c ∧ c ≤ 71 ∧ len = 8) ∨ (132 ≤ c ∧ c ≤ 135 ∧ len = 16) ∨ (261 ≤ c ∧ c ≤ 263 ∧ len = 32) ∨
        (518 ≤ c ∧ c ≤ 519 ∧ len = 64) ∨ (c = 1031 ∧ len = 128))

/-- R150, R152, R154: a header of `h` bits holds bit `h-1-j` of the length at place `j`; parsing undoes building where the
length fits, building undoes parsing always, and a parsed header of `h` bits is below `2^h`. -/
def Obligations.HeaderFunctionsAreInverse : Prop :=
  (∀ len h : Nat, (encodeHeader len h).length = h ∧
    ∀ j, j < h → (encodeHeader len h)[j]? = some (BitVec.ofNat 1 (len / 2 ^ (h - 1 - j) % 2))) ∧
    (∀ len h : Nat, len < 2 ^ h → decodeHeader (encodeHeader len h) = len) ∧
    ∀ s : BitSeq, encodeHeader (decodeHeader s) s.length = s ∧ decodeHeader s < 2 ^ s.length

/-- R151: the tests of ENCHDR in their order, and the header it puts in front of BITBUF. -/
def Obligations.EnchdrPrependsTheHeader : Prop :=
  encodeWord .enchdr = 0x22 ∧ ∀ s : State,
    (Config.params.capw < s.hw.toNat → exec .enchdr s = .next (s.raised .illegalConfig)) ∧
    (s.hw.toNat ≤ Config.params.capw → 2 ^ s.hw.toNat ≤ s.plen.toNat →
      exec .enchdr s = .next (s.raised .payloadTooLargeForHeader)) ∧
    (s.hw.toNat ≤ Config.params.capw → s.plen.toNat < 2 ^ s.hw.toNat →
      2 ^ Config.params.blw - 1 < s.bitbuf.length + s.hw.toNat → exec .enchdr s = .next (s.raised .indexOutOfRange)) ∧
    (s.hw.toNat ≤ Config.params.capw → s.plen.toNat < 2 ^ s.hw.toNat →
      s.bitbuf.length + s.hw.toNat ≤ 2 ^ Config.params.blw - 1 →
      ∃ hdr : BitSeq,
        exec .enchdr s = .next { s with bitbuf := hdr ++ s.bitbuf, status := statusOf s.faultFlag 0 } ∧
          hdr.length = s.hw.toNat ∧
          ∀ j, j < s.hw.toNat → hdr[j]? = some (BitVec.ofNat 1 (s.plen.toNat / 2 ^ (s.hw.toNat - 1 - j) % 2)))

/-- R153, R152: the tests of DECHDR in their order; the first `HW` bits leave BITBUF and their value, most significant
bit first, is in `DLEN`. -/
def Obligations.DechdrTakesTheHeader : Prop :=
  encodeWord .dechdr = 0x23 ∧ ∀ s : State,
    (Config.params.capw < s.hw.toNat → exec .dechdr s = .next (s.raised .illegalConfig)) ∧
    (s.hw.toNat ≤ Config.params.capw → s.bitbuf.length < s.hw.toNat →
      exec .dechdr s = .next (s.raised .truncatedCover)) ∧
    (s.hw.toNat ≤ Config.params.capw → s.hw.toNat ≤ s.bitbuf.length →
      ∃ v, exec .dechdr s = .next
          { s with dlen := v, bitbuf := s.bitbuf.drop s.hw.toNat, status := statusOf s.faultFlag 0 } ∧
        v.toNat = ((List.range s.hw.toNat).map fun j => (bitAt s.bitbuf j).toNat * 2 ^ (s.hw.toNat - 1 - j)).sum)

/-! ### The mapper -/

/-- R171: below the capacity, `slot_to_pixel` and `(y*WIDTH + x)*CHANNELS + c` are inverse, and the triple is in range. -/
def Obligations.SlotsAndPixelsAreInBijection : Prop :=
  (∀ w h c i : Nat, i < w * h * c →
    (slotToPixel w c i).x < w ∧ (slotToPixel w c i).y < h ∧ (slotToPixel w c i).c < c ∧
      ((slotToPixel w c i).y * w + (slotToPixel w c i).x) * c + (slotToPixel w c i).c = i) ∧
    ∀ w h c x y k : Nat, x < w → y < h → k < c →
      (y * w + x) * c + k < w * h * c ∧ slotToPixel w c ((y * w + x) * c + k) = ⟨x, y, k⟩

/-- R172: MAP gives column, row and channel of slot `IDX`; at or past the capacity it raises `IndexOutOfRange`. -/
def Obligations.MapLocatesTheSlot : Prop :=
  encodeWord .map = 0x30 ∧ ∀ s : State,
    (s.cap ≤ s.idx.toNat → exec .map s = .next (s.raised .indexOutOfRange)) ∧
    (s.idx.toNat < s.cap → ∃ x y c,
      exec .map s = .next { s with px := x, py := y, pch := c, status := statusOf s.faultFlag 0 } ∧
        x.toNat < s.width.toNat ∧ y.toNat < s.height.toNat ∧ c.toNat < s.channels.toNat ∧
        (y.toNat * s.width.toNat + x.toNat) * s.channels.toNat + c.toNat = s.idx.toNat)

/-- R174, R175: the LSB is bit 0 of the sample, 0 for sample 0 and 1 for `MAXVAL`. The bit put in is read back in both
modes; off a bilevel surface every other bit of the sample is kept, the sample moves by at most 1, and putting in the bit
that is there changes nothing; on one the sample becomes `MAXVAL` or 0. For every sample width. -/
def Obligations.PutBitAndLsb : Prop :=
  ∀ (P : Params) (m : Bit) (v : BitVec P.sw) (x : Bit),
    ((lsb v).toNat = v.toNat % 2 ∧ lsb (0 : BitVec P.sw) = 0 ∧ lsb (BitVec.ofNat P.sw (2 ^ P.sw - 1)) = 1) ∧
      lsb (putBit m v x) = x ∧
      (m = 0 → (∀ j, 1 ≤ j → (putBit m v x).getLsbD j = v.getLsbD j) ∧ putBit m v (lsb v) = v ∧
        (putBit m v x).toNat ≤ v.toNat + 1 ∧ v.toNat ≤ (putBit m v x).toNat + 1) ∧
      (m = 1 → (putBit m v x).toNat = if x = 1 then 2 ^ P.sw - 1 else 0)

/-- R176: RDLSB reads the LSB of slot `IDX` into `BIT`; at or past the capacity it raises `IndexOutOfRange`. -/
def Obligations.RdlsbReadsOneSlot : Prop :=
  encodeWord .rdlsb = 0x31 ∧ ∀ s : State,
    (s.cap ≤ s.idx.toNat → exec .rdlsb s = .next (s.raised .indexOutOfRange)) ∧
    (s.idx.toNat < s.cap → ∃ x,
      exec .rdlsb s = .next { s with bit := x, status := statusOf s.faultFlag 0 } ∧
        x.toNat = (s.readCov s.idx.toNat).toNat % 2)

/-- R177: WRLSB puts `BIT` into slot `IDX` and changes no other sample; at or past the capacity it raises
`IndexOutOfRange`. -/
def Obligations.WrlsbWritesOneSlot : Prop :=
  encodeWord .wrlsb = 0x32 ∧ ∀ s : State,
    (s.cap ≤ s.idx.toNat → exec .wrlsb s = .next (s.raised .indexOutOfRange)) ∧
    (s.idx.toNat < s.cap → ∃ m,
      exec .wrlsb s = .next { s with cov := m, status := statusOf s.faultFlag 0 } ∧
        ∀ k, { s with cov := m }.readCov k =
          if k = s.idx.toNat then putBit s.bilevel (s.readCov k) s.bit else s.readCov k)

/-- R178: READALL replaces BITBUF by the LSBs of all `CAP` slots, in ascending order. -/
def Obligations.ReadallReadsEverySlot : Prop :=
  encodeWord .readall = 0x33 ∧ ∀ s : State, ∃ bits : BitSeq,
    exec .readall s = .next { s with bitbuf := bits, status := statusOf s.faultFlag 0 } ∧ bits.length = s.cap ∧
      ∀ k, k < s.cap → bits[k]? = some (lsb (s.readCov k))

/-- R180 to R182: the tests of WRBITS in their order, `FILL` by its number in `MODE` (R27); the slots below `len(BITBUF)` get
the bits of BITBUF, the others what the filler mode says. Nothing else of the block changes but STATUS (`draws` is the
model's own, log 3). -/
def Obligations.WrbitsWritesTheStreamAndTheTail : Prop :=
  encodeWord .wrbits = 0x34 ∧ ∀ s : State,
    (s.mode.toNat % 4 = 3 → exec .wrbits s = .next (s.raised .illegalConfig)) ∧
    (s.mode.toNat % 4 ≠ 3 → s.cap < s.bitbuf.length → exec .wrbits s = .next (s.raised .bitsExceedCapacity)) ∧
    (s.mode.toNat % 4 ≠ 3 → s.bitbuf.length ≤ s.cap → ∃ m n,
      exec .wrbits s = .next { s with cov := m, status := statusOf s.faultFlag 0, draws := n } ∧
        (∀ k, k < s.bitbuf.length →
          { s with cov := m }.readCov k = putBit s.bilevel (s.readCov k) (bitAt s.bitbuf k)) ∧
        TailFilled s { s with cov := m } s.bitbuf.length)

/-- R183: what WRBITS wrote, READALL reads back, in both BILEVEL modes; past it, zeros with the zero filler and the old
LSBs with none. -/
def Obligations.ReadallReadsBackWrbits : Prop :=
  ∀ s t : State, exec .wrbits s = .next t → t.ok → ∃ u, exec .readall t = .next u ∧
    u.bitbuf.take s.bitbuf.length = s.bitbuf ∧ u.bitbuf.length = s.cap ∧
    (s.mode.toNat % 4 = 1 → ∀ k, s.bitbuf.length ≤ k → k < s.cap → u.bitbuf[k]? = some 0) ∧
    (s.mode.toNat % 4 = 0 → ∀ k, s.bitbuf.length ≤ k → k < s.cap → u.bitbuf[k]? = some (lsb (s.readCov k)))

/-- R65: writing a slot through the collaborator's pixel port (read the tuple, replace one element, write the tuple)
leaves every sample as the single-sample write does. -/
def Obligations.PixelPortWritesTheSameSample : Prop :=
  ∀ (P : Params) (b : Block P) (i : Nat) (x : Bit), i < b.cap →
    let p := slotToPixel b.width.toNat b.channels.toNat i
    ∀ k, (b.setPixel p.x p.y ((b.getPixel p.x p.y).set p.c (putBit b.bilevel (b.readCov i) x))).readCov k =
      (b.putSlot i x).readCov k

/-! ### HIDE and REVEAL -/

/-- R200, R201: the tests of HIDE in their order, `FILL` by its number in `MODE` (R27), each changing nothing but STATUS.
Where they pass, the stream (header, then
payload bits) is in the slots from 0 and the filler after it, the header width in `HW`, BITBUF empty, and nothing else of
the block has changed but STATUS (`draws` is the model's own, log 3). -/
def Obligations.HideChecksThenWritesTheStream : Prop :=
  encodeWord .hide = 0x40 ∧ ∀ s : State,
    (s.mode.toNat % 4 = 3 → exec .hide s = .next (s.raised .illegalConfig)) ∧
    (s.mode.toNat % 4 ≠ 3 → s.cap < 8 * s.plen.toNat + headerWidth s.cap →
      exec .hide s = .next (s.raised .payloadTooLargeForCover)) ∧
    (s.mode.toNat % 4 ≠ 3 → 8 * s.plen.toNat + headerWidth s.cap ≤ s.cap → 2 ^ headerWidth s.cap ≤ s.plen.toNat →
      exec .hide s = .next (s.raised .payloadTooLargeForHeader)) ∧
    (s.mode.toNat % 4 ≠ 3 → 8 * s.plen.toNat + headerWidth s.cap ≤ s.cap → s.plen.toNat < 2 ^ headerWidth s.cap →
      ∃ m v n,
      exec .hide s = .next
          { s with cov := m, hw := v, bitbuf := [], status := statusOf s.faultFlag 0, draws := n } ∧
        v.toNat = headerWidth s.cap ∧
        (∀ k, k < headerWidth s.cap + 8 * s.plen.toNat →
          { s with cov := m }.readCov k = putBit s.bilevel (s.readCov k) (s.streamBit (headerWidth s.cap) k)) ∧
        TailFilled s { s with cov := m } (headerWidth s.cap + 8 * s.plen.toNat))

/-- R205, R206: REVEAL takes the header width from `CAP` and the length L from the header's slots; where the cover holds
`h + 8*L` slots it puts the L bytes that follow to PAY from address 0, else it raises `TruncatedCover`. -/
def Obligations.RevealDeliversThePayload : Prop :=
  encodeWord .reveal = 0x41 ∧ ∀ (s : State) (h len : Nat), h = headerWidth s.cap →
    len = ((List.range h).map fun j => (lsb (s.readCov j)).toNat * 2 ^ (h - 1 - j)).sum →
    (s.cap < h + 8 * len → exec .reveal s = .next (s.raised .truncatedCover)) ∧
    (h + 8 * len ≤ s.cap → ∃ m v n,
      exec .reveal s = .next
          { s with pay := m, hw := v, dlen := n, olen := n, bitbuf := [], status := statusOf s.faultFlag 0 } ∧
        v.toNat = h ∧ n.toNat = len ∧
        (∀ k, len ≤ k → { s with pay := m }.readPay k = s.readPay k) ∧
        ∀ k j, k < len → j ≤ 7 →
          ({ s with pay := m }.readPay k).extractLsb' (7 - j) 1 = lsb (s.readCov (h + 8 * k + j)))

/-- R202: when HIDE does not fault, it leaves exactly the state of HWIDTH, VALIDATE, BYTES2BITS, ENCHDR, WRBITS, BCLR, the
draws of a random filler being the same, which in the model they are because both runs start from one counter (log 3). -/
def Obligations.HideEqualsItsCommandSequence : Prop :=
  ∀ s t : State, exec .hide s = .next t → t.ok →
    runCommands [.hwidth, .validate, .bytes2bits, .enchdr, .wrbits, .bclr] s = .next t

/-- R207: when REVEAL does not fault, it leaves exactly the state of READALL, HWIDTH, DECHDR, BITS2BYTESD, BCLR; when it
faults the sequence does not, and leaves `OLEN` = `(CAP - h) // 8`, fewer than `DLEN`. -/
def Obligations.RevealEqualsItsCommandSequence : Prop :=
  ∀ s t : State, exec .reveal s = .next t →
    (t.ok → runCommands [.readall, .hwidth, .dechdr, .bits2bytesd, .bclr] s = .next t) ∧
    (¬ t.ok → ∃ u, runCommands [.readall, .hwidth, .dechdr, .bits2bytesd, .bclr] s = .next u ∧ u.ok ∧
      u.olen.toNat = (s.cap - headerWidth s.cap) / 8 ∧ u.olen.toNat < u.dlen.toNat)

/-- R210, R211, for every choice of the parameters and every filler draw: after a HIDE that succeeds, REVEAL succeeds and
gives the payload back on any block with the same dimensions whose LSBs in slots 0 to h+8*L-1 are undisturbed, whatever
else differs. -/
def Obligations.HideThenRevealGivesThePayload : Prop :=
  ∀ (P : Params) (rnd : Nat → Bit) (b d u : Block P), b.cmdHide rnd = .next d → d.ok →
    u.width = b.width → u.height = b.height → u.channels = b.channels →
    (∀ k, k < headerWidth b.cap + 8 * b.plen.toNat → lsb (u.readCov k) = lsb (d.readCov k)) →
    ∃ v, u.cmdReveal = .next v ∧ v.ok ∧ v.olen = b.plen ∧ v.dlen = b.plen ∧
      ∀ k, k < b.plen.toNat → v.readPay k = b.readPay k

/-- R210 as a run of the machine: the host issues HIDE, overwrites the payload buffer in any way, and issues REVEAL; where
HIDE's tests pass, the run ends with the payload back in PAY. That the host's lines are a list in the state, one taken by
each step, is the model's form (log 6). -/
def Obligations.HideOverwriteRevealRun : Prop :=
  ∀ (s : State) (ws : List (BitVec Config.params.capw × Byte)),
    s.host = .txn (.cmd 0x40) :: (ws.map fun p => .txn (.payWrite p.1 p.2)) ++ [.txn (.cmd 0x41)] →
    s.mode.toNat % 4 ≠ 3 →
    8 * s.plen.toNat + headerWidth s.cap ≤ s.cap → s.plen.toNat < 2 ^ headerWidth s.cap →
    ∃ t : State, Sys2Proof.core.run (ws.length + 2) s = .next t ∧ t.ok ∧ t.host = [] ∧ t.olen = s.plen ∧
      ∀ k, k < s.plen.toNat → t.readPay k = s.readPay k

/-- R213: with the empty payload HIDE passes its tests on every cover, and REVEAL then gives length 0 and writes no byte. -/
def Obligations.EmptyPayloadRoundTrip : Prop :=
  ∀ s : State, s.plen = 0 → s.mode.toNat % 4 ≠ 3 → ∃ t u, exec .hide s = .next t ∧ t.ok ∧ exec .reveal t = .next u ∧
    u.ok ∧ u.olen = 0 ∧ u.pay = s.pay ∧ (s.cap < 16 → s.mode.toNat % 4 = 0 → t.cov = s.cov)

/-- R252: a HIDE that succeeds does not depend on `HW`, BITBUF, `LIMIT`, `IDX`, `BIT`, `DLEN` or `OLEN`. -/
def Obligations.HideIgnoresTheWorkingRegisters : Prop :=
  ∀ (s t : State) (hw : BitVec Config.params.hww) (buf : BitSeq) (lim : BitVec Config.params.blw)
    (idx dlen olen : BitVec Config.params.capw) (x : Bit), exec .hide s = .next t → t.ok →
    exec .hide { s with hw := hw, bitbuf := buf, limit := lim, idx := idx, bit := x, dlen := dlen, olen := olen } =
      .next { t with limit := lim, idx := idx, bit := x, dlen := dlen, olen := olen }

/-- R205, R211, R253: REVEAL's outcome, length and bytes depend on the dimensions and on the LSBs of slots 0 to h+8*L-1
alone: not on `MODE`, `PLEN`, `HW` or anything else of the block. -/
def Obligations.RevealDependsOnTheStreamSlotsAlone : Prop :=
  ∀ (P : Params) (b d : Block P), d.width = b.width → d.height = b.height → d.channels = b.channels →
    (∀ k, k < headerWidth b.cap + 8 * decodeHeader (b.readLsbs 0 (headerWidth b.cap)) →
      lsb (d.readCov k) = lsb (b.readCov k)) →
    ∃ v w, b.cmdReveal = .next v ∧ d.cmdReveal = .next w ∧ v.err = w.err ∧
      (v.ok → v.hw = w.hw ∧ v.dlen = w.dlen ∧ v.olen = w.olen ∧
        ∀ k, k < v.olen.toNat → v.readPay k = w.readPay k)

/-! ### The whole machine -/

/-- R21: a register changes only by a command of its column "written by". -/
def Obligations.RegistersChangeOnlyByTheirWriters : Prop :=
  ∀ (i : Instr) (s t : State) (r : Reg), exec i s = .next t → i ∉ writersOf r → t.readReg r = s.readReg r

/-- R71, R184: a command changes only the elements of PAY and COV that its row of the access table writes. -/
def Obligations.CommandsWriteOnlyListedElements : Prop :=
  ∀ (i : Instr) (s t : State), exec i s = .next t →
    (∀ a, Access.payWrite a ∉ s.accesses i → t.readPay a = s.readPay a) ∧
      ∀ k, Access.covWrite k ∉ s.accesses i → t.readCov k = s.readCov k

/-- R71: a command's effect depends only on the elements of PAY and COV that its row of the access table reads. -/
def Obligations.CommandsReadOnlyListedElements : Prop :=
  ∀ (i : Instr) (s t : State) (m : Memory 8) (c : Memory Config.params.sw), exec i s = .next t →
    (∀ a, Access.payRead a ∈ s.accesses i → { s with pay := m, cov := c }.readPay a = s.readPay a) →
    (∀ k, Access.covRead k ∈ s.accesses i → { s with pay := m, cov := c }.readCov k = s.readCov k) →
    ∃ m' c', exec i { s with pay := m, cov := c } = .next { t with pay := m', cov := c' } ∧
      (∀ a, Access.payWrite a ∈ s.accesses i → { t with pay := m', cov := c' }.readPay a = t.readPay a) ∧
      ∀ k, Access.covWrite k ∈ s.accesses i → { t with pay := m', cov := c' }.readCov k = t.readCov k

/-- R67, an inference the spec marks as its own: no command forms a COV index at or above `CAP` or a PAY address at or
above 2^CAPW. -/
def Obligations.NoAccessOutsideTheSpaces : Prop :=
  ∀ (i : Instr) (s t : State), exec i s = .next t → ∀ a ∈ s.accesses i,
    match a with
    | .payRead k => k < 2 ^ Config.params.capw
    | .payWrite k => k < 2 ^ Config.params.capw
    | .covRead k => k < s.cap
    | .covWrite k => k < s.cap

/-- R95: the block never changes the bits of a sample above bit 0; on a bilevel surface a sample it changes becomes 0 or
`MAXVAL`. -/
def Obligations.UpperBitsOfSamplesAreKept : Prop :=
  ∀ (i : Instr) (s t : State), exec i s = .next t →
    (s.bilevel = 0 → ∀ k j, 1 ≤ j → (t.readCov k).getLsbD j = (s.readCov k).getLsbD j) ∧
      (s.bilevel = 1 → ∀ k, t.readCov k ≠ s.readCov k →
        (t.readCov k).toNat = 0 ∨ (t.readCov k).toNat = 2 ^ Config.params.sw - 1)

/-- The invariant holds after reset, for every choice of the parameters. That R43's state meets it rests on the spaces
being lists in canonical form with nothing listed, which is the model's choice (log 2). -/
def Obligations.ResetMeetsTheInvariant : Prop := State.reset.Inv ∧ ∀ P : Params, (System.reset P).Inv

/-- Every step keeps the invariant, for every choice of the parameters: canonical spaces within their address ranges (the
canonical form is the model's, log 2), BITBUF no longer than `BLEN` counts, `ERR` a code the block produces, and set only
together with `FAULT` (R9, R35, R36, R39, R40, R220, R226). -/
def Obligations.EveryStepKeepsTheInvariant : Prop :=
  (∀ s t : State, s.Inv → step s = .next t → t.Inv) ∧
    ∀ (P : Params) (m n : System P), m.Inv → System.step m = .next n → n.Inv
end

