-- ==== Sys2Proof/Laws/State.lean ====
section
/-! SUPPORT. One lemma per field per update of the block and of the machine, so that no proof unfolds a record. -/

namespace Sys2Proof.Machine

section
variable {P : Params} (b : Block P)

/-! ### succeed -/

@[simp] theorem Block.succeed_width : (b.succeed).width = b.width := rfl
@[simp] theorem Block.succeed_height : (b.succeed).height = b.height := rfl
@[simp] theorem Block.succeed_channels : (b.succeed).channels = b.channels := rfl
@[simp] theorem Block.succeed_mode : (b.succeed).mode = b.mode := rfl
@[simp] theorem Block.succeed_hw : (b.succeed).hw = b.hw := rfl
@[simp] theorem Block.succeed_plen : (b.succeed).plen = b.plen := rfl
@[simp] theorem Block.succeed_dlen : (b.succeed).dlen = b.dlen := rfl
@[simp] theorem Block.succeed_olen : (b.succeed).olen = b.olen := rfl
@[simp] theorem Block.succeed_limit : (b.succeed).limit = b.limit := rfl
@[simp] theorem Block.succeed_idx : (b.succeed).idx = b.idx := rfl
@[simp] theorem Block.succeed_px : (b.succeed).px = b.px := rfl
@[simp] theorem Block.succeed_py : (b.succeed).py = b.py := rfl
@[simp] theorem Block.succeed_pch : (b.succeed).pch = b.pch := rfl
@[simp] theorem Block.succeed_bit : (b.succeed).bit = b.bit := rfl
@[simp] theorem Block.succeed_bitbuf : (b.succeed).bitbuf = b.bitbuf := rfl
@[simp] theorem Block.succeed_pay : (b.succeed).pay = b.pay := rfl
@[simp] theorem Block.succeed_cov : (b.succeed).cov = b.cov := rfl
@[simp] theorem Block.succeed_status : b.succeed.status = statusSucceeded b.status := rfl

/-! ### raise -/

@[simp] theorem Block.raise_width (c : Cause) : (b.raise c).width = b.width := rfl
@[simp] theorem Block.raise_height (c : Cause) : (b.raise c).height = b.height := rfl
@[simp] theorem Block.raise_channels (c : Cause) : (b.raise c).channels = b.channels := rfl
@[simp] theorem Block.raise_mode (c : Cause) : (b.raise c).mode = b.mode := rfl
@[simp] theorem Block.raise_hw (c : Cause) : (b.raise c).hw = b.hw := rfl
@[simp] theorem Block.raise_plen (c : Cause) : (b.raise c).plen = b.plen := rfl
@[simp] theorem Block.raise_dlen (c : Cause) : (b.raise c).dlen = b.dlen := rfl
@[simp] theorem Block.raise_olen (c : Cause) : (b.raise c).olen = b.olen := rfl
@[simp] theorem Block.raise_limit (c : Cause) : (b.raise c).limit = b.limit := rfl
@[simp] theorem Block.raise_idx (c : Cause) : (b.raise c).idx = b.idx := rfl
@[simp] theorem Block.raise_px (c : Cause) : (b.raise c).px = b.px := rfl
@[simp] theorem Block.raise_py (c : Cause) : (b.raise c).py = b.py := rfl
@[simp] theorem Block.raise_pch (c : Cause) : (b.raise c).pch = b.pch := rfl
@[simp] theorem Block.raise_bit (c : Cause) : (b.raise c).bit = b.bit := rfl
@[simp] theorem Block.raise_bitbuf (c : Cause) : (b.raise c).bitbuf = b.bitbuf := rfl
@[simp] theorem Block.raise_pay (c : Cause) : (b.raise c).pay = b.pay := rfl
@[simp] theorem Block.raise_cov (c : Cause) : (b.raise c).cov = b.cov := rfl
@[simp] theorem Block.raise_status (c : Cause) : (b.raise c).status = statusRaised c := rfl

/-! ### writePay -/

@[simp] theorem Block.writePay_width (a : Nat) (v : Byte) : (b.writePay a v).width = b.width := rfl
@[simp] theorem Block.writePay_height (a : Nat) (v : Byte) : (b.writePay a v).height = b.height := rfl
@[simp] theorem Block.writePay_channels (a : Nat) (v : Byte) : (b.writePay a v).channels = b.channels := rfl
@[simp] theorem Block.writePay_mode (a : Nat) (v : Byte) : (b.writePay a v).mode = b.mode := rfl
@[simp] theorem Block.writePay_hw (a : Nat) (v : Byte) : (b.writePay a v).hw = b.hw := rfl
@[simp] theorem Block.writePay_plen (a : Nat) (v : Byte) : (b.writePay a v).plen = b.plen := rfl
@[simp] theorem Block.writePay_dlen (a : Nat) (v : Byte) : (b.writePay a v).dlen = b.dlen := rfl
@[simp] theorem Block.writePay_olen (a : Nat) (v : Byte) : (b.writePay a v).olen = b.olen := rfl
@[simp] theorem Block.writePay_limit (a : Nat) (v : Byte) : (b.writePay a v).limit = b.limit := rfl
@[simp] theorem Block.writePay_idx (a : Nat) (v : Byte) : (b.writePay a v).idx = b.idx := rfl
@[simp] theorem Block.writePay_px (a : Nat) (v : Byte) : (b.writePay a v).px = b.px := rfl
@[simp] theorem Block.writePay_py (a : Nat) (v : Byte) : (b.writePay a v).py = b.py := rfl
@[simp] theorem Block.writePay_pch (a : Nat) (v : Byte) : (b.writePay a v).pch = b.pch := rfl
@[simp] theorem Block.writePay_bit (a : Nat) (v : Byte) : (b.writePay a v).bit = b.bit := rfl
@[simp] theorem Block.writePay_status (a : Nat) (v : Byte) : (b.writePay a v).status = b.status := rfl
@[simp] theorem Block.writePay_bitbuf (a : Nat) (v : Byte) : (b.writePay a v).bitbuf = b.bitbuf := rfl
@[simp] theorem Block.writePay_cov (a : Nat) (v : Byte) : (b.writePay a v).cov = b.cov := rfl
@[simp] theorem Block.writePay_pay (a : Nat) (v : Byte) : (b.writePay a v).pay = b.pay.store a v := rfl

/-! ### writeCov -/

@[simp] theorem Block.writeCov_width (i : Nat) (v : BitVec P.sw) : (b.writeCov i v).width = b.width := rfl
@[simp] theorem Block.writeCov_height (i : Nat) (v : BitVec P.sw) : (b.writeCov i v).height = b.height := rfl
@[simp] theorem Block.writeCov_channels (i : Nat) (v : BitVec P.sw) : (b.writeCov i v).channels = b.channels := rfl
@[simp] theorem Block.writeCov_mode (i : Nat) (v : BitVec P.sw) : (b.writeCov i v).mode = b.mode := rfl
@[simp] theorem Block.writeCov_hw (i : Nat) (v : BitVec P.sw) : (b.writeCov i v).hw = b.hw := rfl
@[simp] theorem Block.writeCov_plen (i : Nat) (v : BitVec P.sw) : (b.writeCov i v).plen = b.plen := rfl
@[simp] theorem Block.writeCov_dlen (i : Nat) (v : BitVec P.sw) : (b.writeCov i v).dlen = b.dlen := rfl
@[simp] theorem Block.writeCov_olen (i : Nat) (v : BitVec P.sw) : (b.writeCov i v).olen = b.olen := rfl
@[simp] theorem Block.writeCov_limit (i : Nat) (v : BitVec P.sw) : (b.writeCov i v).limit = b.limit := rfl
@[simp] theorem Block.writeCov_idx (i : Nat) (v : BitVec P.sw) : (b.writeCov i v).idx = b.idx := rfl
@[simp] theorem Block.writeCov_px (i : Nat) (v : BitVec P.sw) : (b.writeCov i v).px = b.px := rfl
@[simp] theorem Block.writeCov_py (i : Nat) (v : BitVec P.sw) : (b.writeCov i v).py = b.py := rfl
@[simp] theorem Block.writeCov_pch (i : Nat) (v : BitVec P.sw) : (b.writeCov i v).pch = b.pch := rfl
@[simp] theorem Block.writeCov_bit (i : Nat) (v : BitVec P.sw) : (b.writeCov i v).bit = b.bit := rfl
@[simp] theorem Block.writeCov_status (i : Nat) (v : BitVec P.sw) : (b.writeCov i v).status = b.status := rfl
@[simp] theorem Block.writeCov_bitbuf (i : Nat) (v : BitVec P.sw) : (b.writeCov i v).bitbuf = b.bitbuf := rfl
@[simp] theorem Block.writeCov_pay (i : Nat) (v : BitVec P.sw) : (b.writeCov i v).pay = b.pay := rfl
@[simp] theorem Block.writeCov_cov (i : Nat) (v : BitVec P.sw) : (b.writeCov i v).cov = b.cov.store i v := rfl

/-! ### putSlot -/

@[simp] theorem Block.putSlot_width (i : Nat) (x : Bit) : (b.putSlot i x).width = b.width := rfl
@[simp] theorem Block.putSlot_height (i : Nat) (x : Bit) : (b.putSlot i x).height = b.height := rfl
@[simp] theorem Block.putSlot_channels (i : Nat) (x : Bit) : (b.putSlot i x).channels = b.channels := rfl
@[simp] theorem Block.putSlot_mode (i : Nat) (x : Bit) : (b.putSlot i x).mode = b.mode := rfl
@[simp] theorem Block.putSlot_hw (i : Nat) (x : Bit) : (b.putSlot i x).hw = b.hw := rfl
@[simp] theorem Block.putSlot_plen (i : Nat) (x : Bit) : (b.putSlot i x).plen = b.plen := rfl
@[simp] theorem Block.putSlot_dlen (i : Nat) (x : Bit) : (b.putSlot i x).dlen = b.dlen := rfl
@[simp] theorem Block.putSlot_olen (i : Nat) (x : Bit) : (b.putSlot i x).olen = b.olen := rfl
@[simp] theorem Block.putSlot_limit (i : Nat) (x : Bit) : (b.putSlot i x).limit = b.limit := rfl
@[simp] theorem Block.putSlot_idx (i : Nat) (x : Bit) : (b.putSlot i x).idx = b.idx := rfl
@[simp] theorem Block.putSlot_px (i : Nat) (x : Bit) : (b.putSlot i x).px = b.px := rfl
@[simp] theorem Block.putSlot_py (i : Nat) (x : Bit) : (b.putSlot i x).py = b.py := rfl
@[simp] theorem Block.putSlot_pch (i : Nat) (x : Bit) : (b.putSlot i x).pch = b.pch := rfl
@[simp] theorem Block.putSlot_bit (i : Nat) (x : Bit) : (b.putSlot i x).bit = b.bit := rfl
@[simp] theorem Block.putSlot_status (i : Nat) (x : Bit) : (b.putSlot i x).status = b.status := rfl
@[simp] theorem Block.putSlot_bitbuf (i : Nat) (x : Bit) : (b.putSlot i x).bitbuf = b.bitbuf := rfl
@[simp] theorem Block.putSlot_pay (i : Nat) (x : Bit) : (b.putSlot i x).pay = b.pay := rfl

/-! ### The loops change one space and nothing else -/

/-- Putting bits into slots changes the cover and nothing else. -/
theorem Block.putBits_frame (i : Nat) (s : BitSeq) : b.putBits i s = { b with cov := (b.putBits i s).cov } := by
  induction s generalizing b i with
  | nil => rfl
  | cons x s ih => rw [Block.putBits, ih]; rfl

/-- Storing bytes changes PAY and nothing else. -/
theorem Block.storeBytes_frame (a : Nat) (bs : Payload) : b.storeBytes a bs = { b with pay := (b.storeBytes a bs).pay } := by
  induction bs generalizing b a with
  | nil => rfl
  | cons v bs ih => rw [Block.storeBytes, ih]; rfl

/-- Writing a stream changes the cover and nothing else. -/
theorem Block.writeStream_frame (f : Option (Nat → Bit)) (s : BitSeq) :
    b.writeStream f s = { b with cov := (b.writeStream f s).cov } := by
  rw [Block.writeStream, Block.putBits_frame, Block.putBits_frame b]

@[simp] theorem Block.putBits_width (i : Nat) (s : BitSeq) : (b.putBits i s).width = b.width := by rw [Block.putBits_frame]
@[simp] theorem Block.putBits_height (i : Nat) (s : BitSeq) : (b.putBits i s).height = b.height := by rw [Block.putBits_frame]
@[simp] theorem Block.putBits_channels (i : Nat) (s : BitSeq) : (b.putBits i s).channels = b.channels := by rw [Block.putBits_frame]
@[simp] theorem Block.putBits_mode (i : Nat) (s : BitSeq) : (b.putBits i s).mode = b.mode := by rw [Block.putBits_frame]
@[simp] theorem Block.putBits_hw (i : Nat) (s : BitSeq) : (b.putBits i s).hw = b.hw := by rw [Block.putBits_frame]
@[simp] theorem Block.putBits_plen (i : Nat) (s : BitSeq) : (b.putBits i s).plen = b.plen := by rw [Block.putBits_frame]
@[simp] theorem Block.putBits_dlen (i : Nat) (s : BitSeq) : (b.putBits i s).dlen = b.dlen := by rw [Block.putBits_frame]
@[simp] theorem Block.putBits_olen (i : Nat) (s : BitSeq) : (b.putBits i s).olen = b.olen := by rw [Block.putBits_frame]
@[simp] theorem Block.putBits_limit (i : Nat) (s : BitSeq) : (b.putBits i s).limit = b.limit := by rw [Block.putBits_frame]
@[simp] theorem Block.putBits_idx (i : Nat) (s : BitSeq) : (b.putBits i s).idx = b.idx := by rw [Block.putBits_frame]
@[simp] theorem Block.putBits_px (i : Nat) (s : BitSeq) : (b.putBits i s).px = b.px := by rw [Block.putBits_frame]
@[simp] theorem Block.putBits_py (i : Nat) (s : BitSeq) : (b.putBits i s).py = b.py := by rw [Block.putBits_frame]
@[simp] theorem Block.putBits_pch (i : Nat) (s : BitSeq) : (b.putBits i s).pch = b.pch := by rw [Block.putBits_frame]
@[simp] theorem Block.putBits_bit (i : Nat) (s : BitSeq) : (b.putBits i s).bit = b.bit := by rw [Block.putBits_frame]
@[simp] theorem Block.putBits_status (i : Nat) (s : BitSeq) : (b.putBits i s).status = b.status := by rw [Block.putBits_frame]
@[simp] theorem Block.putBits_bitbuf (i : Nat) (s : BitSeq) : (b.putBits i s).bitbuf = b.bitbuf := by rw [Block.putBits_frame]
@[simp] theorem Block.putBits_pay (i : Nat) (s : BitSeq) : (b.putBits i s).pay = b.pay := by rw [Block.putBits_frame]

@[simp] theorem Block.storeBytes_width (a : Nat) (bs : Payload) : (b.storeBytes a bs).width = b.width := by rw [Block.storeBytes_frame]
@[simp] theorem Block.storeBytes_height (a : Nat) (bs : Payload) : (b.storeBytes a bs).height = b.height := by rw [Block.storeBytes_frame]
@[simp] theorem Block.storeBytes_channels (a : Nat) (bs : Payload) : (b.storeBytes a bs).channels = b.channels := by rw [Block.storeBytes_frame]
@[simp] theorem Block.storeBytes_mode (a : Nat) (bs : Payload) : (b.storeBytes a bs).mode = b.mode := by rw [Block.storeBytes_frame]
@[simp] theorem Block.storeBytes_hw (a : Nat) (bs : Payload) : (b.storeBytes a bs).hw = b.hw := by rw [Block.storeBytes_frame]
@[simp] theorem Block.storeBytes_plen (a : Nat) (bs : Payload) : (b.storeBytes a bs).plen = b.plen := by rw [Block.storeBytes_frame]
@[simp] theorem Block.storeBytes_dlen (a : Nat) (bs : Payload) : (b.storeBytes a bs).dlen = b.dlen := by rw [Block.storeBytes_frame]
@[simp] theorem Block.storeBytes_olen (a : Nat) (bs : Payload) : (b.storeBytes a bs).olen = b.olen := by rw [Block.storeBytes_frame]
@[simp] theorem Block.storeBytes_limit (a : Nat) (bs : Payload) : (b.storeBytes a bs).limit = b.limit := by rw [Block.storeBytes_frame]
@[simp] theorem Block.storeBytes_idx (a : Nat) (bs : Payload) : (b.storeBytes a bs).idx = b.idx := by rw [Block.storeBytes_frame]
@[simp] theorem Block.storeBytes_px (a : Nat) (bs : Payload) : (b.storeBytes a bs).px = b.px := by rw [Block.storeBytes_frame]
@[simp] theorem Block.storeBytes_py (a : Nat) (bs : Payload) : (b.storeBytes a bs).py = b.py := by rw [Block.storeBytes_frame]
@[simp] theorem Block.storeBytes_pch (a : Nat) (bs : Payload) : (b.storeBytes a bs).pch = b.pch := by rw [Block.storeBytes_frame]
@[simp] theorem Block.storeBytes_bit (a : Nat) (bs : Payload) : (b.storeBytes a bs).bit = b.bit := by rw [Block.storeBytes_frame]
@[simp] theorem Block.storeBytes_status (a : Nat) (bs : Payload) : (b.storeBytes a bs).status = b.status := by rw [Block.storeBytes_frame]
@[simp] theorem Block.storeBytes_bitbuf (a : Nat) (bs : Payload) : (b.storeBytes a bs).bitbuf = b.bitbuf := by rw [Block.storeBytes_frame]
@[simp] theorem Block.storeBytes_cov (a : Nat) (bs : Payload) : (b.storeBytes a bs).cov = b.cov := by rw [Block.storeBytes_frame]

@[simp] theorem Block.writeStream_width (f : Option (Nat → Bit)) (s : BitSeq) : (b.writeStream f s).width = b.width := by rw [Block.writeStream_frame]
@[simp] theorem Block.writeStream_height (f : Option (Nat → Bit)) (s : BitSeq) : (b.writeStream f s).height = b.height := by rw [Block.writeStream_frame]
@[simp] theorem Block.writeStream_channels (f : Option (Nat → Bit)) (s : BitSeq) : (b.writeStream f s).channels = b.channels := by rw [Block.writeStream_frame]
@[simp] theorem Block.writeStream_mode (f : Option (Nat → Bit)) (s : BitSeq) : (b.writeStream f s).mode = b.mode := by rw [Block.writeStream_frame]
@[simp] theorem Block.writeStream_hw (f : Option (Nat → Bit)) (s : BitSeq) : (b.writeStream f s).hw = b.hw := by rw [Block.writeStream_frame]
@[simp] theorem Block.writeStream_plen (f : Option (Nat → Bit)) (s : BitSeq) : (b.writeStream f s).plen = b.plen := by rw [Block.writeStream_frame]
@[simp] theorem Block.writeStream_dlen (f : Option (Nat → Bit)) (s : BitSeq) : (b.writeStream f s).dlen = b.dlen := by rw [Block.writeStream_frame]
@[simp] theorem Block.writeStream_olen (f : Option (Nat → Bit)) (s : BitSeq) : (b.writeStream f s).olen = b.olen := by rw [Block.writeStream_frame]
@[simp] theorem Block.writeStream_limit (f : Option (Nat → Bit)) (s : BitSeq) : (b.writeStream f s).limit = b.limit := by rw [Block.writeStream_frame]
@[simp] theorem Block.writeStream_idx (f : Option (Nat → Bit)) (s : BitSeq) : (b.writeStream f s).idx = b.idx := by rw [Block.writeStream_frame]
@[simp] theorem Block.writeStream_px (f : Option (Nat → Bit)) (s : BitSeq) : (b.writeStream f s).px = b.px := by rw [Block.writeStream_frame]
@[simp] theorem Block.writeStream_py (f : Option (Nat → Bit)) (s : BitSeq) : (b.writeStream f s).py = b.py := by rw [Block.writeStream_frame]
@[simp] theorem Block.writeStream_pch (f : Option (Nat → Bit)) (s : BitSeq) : (b.writeStream f s).pch = b.pch := by rw [Block.writeStream_frame]
@[simp] theorem Block.writeStream_bit (f : Option (Nat → Bit)) (s : BitSeq) : (b.writeStream f s).bit = b.bit := by rw [Block.writeStream_frame]
@[simp] theorem Block.writeStream_status (f : Option (Nat → Bit)) (s : BitSeq) : (b.writeStream f s).status = b.status := by rw [Block.writeStream_frame]
@[simp] theorem Block.writeStream_bitbuf (f : Option (Nat → Bit)) (s : BitSeq) : (b.writeStream f s).bitbuf = b.bitbuf := by rw [Block.writeStream_frame]
@[simp] theorem Block.writeStream_pay (f : Option (Nat → Bit)) (s : BitSeq) : (b.writeStream f s).pay = b.pay := by rw [Block.writeStream_frame]

/-! ### Views -/

@[simp] theorem Block.succeed_cap : (b.succeed).cap = b.cap := rfl
@[simp] theorem Block.succeed_bilevel : (b.succeed).bilevel = b.bilevel := rfl
@[simp] theorem Block.succeed_fill? : (b.succeed).fill? = b.fill? := rfl
@[simp] theorem Block.succeed_readPay (k : Nat) : (b.succeed).readPay k = b.readPay k := rfl
@[simp] theorem Block.succeed_readCov (k : Nat) : (b.succeed).readCov k = b.readCov k := rfl
@[simp] theorem Block.raise_cap (c : Cause) : (b.raise c).cap = b.cap := rfl
@[simp] theorem Block.raise_bilevel (c : Cause) : (b.raise c).bilevel = b.bilevel := rfl
@[simp] theorem Block.raise_fill? (c : Cause) : (b.raise c).fill? = b.fill? := rfl
@[simp] theorem Block.raise_readPay (c : Cause) (k : Nat) : (b.raise c).readPay k = b.readPay k := rfl
@[simp] theorem Block.raise_readCov (c : Cause) (k : Nat) : (b.raise c).readCov k = b.readCov k := rfl
@[simp] theorem Block.writePay_cap (a : Nat) (v : Byte) : (b.writePay a v).cap = b.cap := rfl
@[simp] theorem Block.writePay_bilevel (a : Nat) (v : Byte) : (b.writePay a v).bilevel = b.bilevel := rfl
@[simp] theorem Block.writePay_fill? (a : Nat) (v : Byte) : (b.writePay a v).fill? = b.fill? := rfl
@[simp] theorem Block.writePay_readCov (a : Nat) (v : Byte) (k : Nat) : (b.writePay a v).readCov k = b.readCov k := rfl
@[simp] theorem Block.writeCov_cap (i : Nat) (v : BitVec P.sw) : (b.writeCov i v).cap = b.cap := rfl
@[simp] theorem Block.writeCov_bilevel (i : Nat) (v : BitVec P.sw) : (b.writeCov i v).bilevel = b.bilevel := rfl
@[simp] theorem Block.writeCov_fill? (i : Nat) (v : BitVec P.sw) : (b.writeCov i v).fill? = b.fill? := rfl
@[simp] theorem Block.writeCov_readPay (i : Nat) (v : BitVec P.sw) (k : Nat) : (b.writeCov i v).readPay k = b.readPay k := rfl
@[simp] theorem Block.putSlot_cap (i : Nat) (x : Bit) : (b.putSlot i x).cap = b.cap := rfl
@[simp] theorem Block.putSlot_bilevel (i : Nat) (x : Bit) : (b.putSlot i x).bilevel = b.bilevel := rfl
@[simp] theorem Block.putSlot_fill? (i : Nat) (x : Bit) : (b.putSlot i x).fill? = b.fill? := rfl
@[simp] theorem Block.putSlot_readPay (i : Nat) (x : Bit) (k : Nat) : (b.putSlot i x).readPay k = b.readPay k := rfl
@[simp] theorem Block.putBits_cap (i : Nat) (s : BitSeq) : (b.putBits i s).cap = b.cap := by rw [Block.putBits_frame]; rfl
@[simp] theorem Block.putBits_bilevel (i : Nat) (s : BitSeq) : (b.putBits i s).bilevel = b.bilevel := by rw [Block.putBits_frame]; rfl
@[simp] theorem Block.putBits_fill? (i : Nat) (s : BitSeq) : (b.putBits i s).fill? = b.fill? := by rw [Block.putBits_frame]; rfl
@[simp] theorem Block.putBits_readPay (i : Nat) (s : BitSeq) (k : Nat) : (b.putBits i s).readPay k = b.readPay k := by rw [Block.putBits_frame]; rfl
@[simp] theorem Block.storeBytes_cap (a : Nat) (bs : Payload) : (b.storeBytes a bs).cap = b.cap := by rw [Block.storeBytes_frame]; rfl
@[simp] theorem Block.storeBytes_bilevel (a : Nat) (bs : Payload) : (b.storeBytes a bs).bilevel = b.bilevel := by rw [Block.storeBytes_frame]; rfl
@[simp] theorem Block.storeBytes_fill? (a : Nat) (bs : Payload) : (b.storeBytes a bs).fill? = b.fill? := by rw [Block.storeBytes_frame]; rfl
@[simp] theorem Block.storeBytes_readCov (a : Nat) (bs : Payload) (k : Nat) : (b.storeBytes a bs).readCov k = b.readCov k := by rw [Block.storeBytes_frame]; rfl
@[simp] theorem Block.writeStream_cap (f : Option (Nat → Bit)) (s : BitSeq) : (b.writeStream f s).cap = b.cap := by rw [Block.writeStream_frame]; rfl
@[simp] theorem Block.writeStream_bilevel (f : Option (Nat → Bit)) (s : BitSeq) : (b.writeStream f s).bilevel = b.bilevel := by rw [Block.writeStream_frame]; rfl
@[simp] theorem Block.writeStream_fill? (f : Option (Nat → Bit)) (s : BitSeq) : (b.writeStream f s).fill? = b.fill? := by rw [Block.writeStream_frame]; rfl
@[simp] theorem Block.writeStream_readPay (f : Option (Nat → Bit)) (s : BitSeq) (k : Nat) : (b.writeStream f s).readPay k = b.readPay k := by rw [Block.writeStream_frame]; rfl

end

/-! ### The machine in general and the machine of the host's interface -/

@[simp] theorem mapNext_next {α β : Type} (f : α → β) (a : α) : mapNext f (.next a) = .next (f a) := rfl
@[simp] theorem mapNext_fault {α β : Type} (f : α → β) (e : Fault) : mapNext f (.fault e) = .fault e := rfl
@[simp] theorem mapNext_refused {α β : Type} (f : α → β) (r : Refusal) : mapNext f (.refused r) = .refused r := rfl

/-- Changing the next state twice. -/
theorem mapNext_mapNext {α β γ : Type} (f : α → β) (g : β → γ) (o : Host.Outcome α Fault Refusal) :
    mapNext g (mapNext f o) = mapNext (g ∘ f) o := by cases o <;> rfl

/-- A changed outcome is a next state exactly where the outcome was one. -/
theorem mapNext_eq_next {α β : Type} {f : α → β} {o : Host.Outcome α Fault Refusal} {b : β} :
    mapNext f o = .next b ↔ ∃ a, o = .next a ∧ f a = b := by
  cases o <;> simp [mapNext]

/-- State and System hold the same data. -/
@[simp] theorem mapNext_toSystem_mk (o : Host.Outcome (System Config.params) Fault Refusal) :
    mapNext State.toSystem (mapNext State.mk o) = o := by cases o <;> rfl

end Sys2Proof.Machine
end

