-- ==== Sys2Proof/Laws/Memory.lean ====
section
/-! SUPPORT. One cell of a space: read after write, the canonical form and the address bound are kept by every write,
and equal contents are equal data. -/

namespace Sys2Proof.Machine

section
variable {w : Nat}

@[simp] theorem Memory.load?_nil (a : Nat) : Memory.load? ([] : Memory w) a = none := rfl

theorem Memory.load?_cons (k : Nat) (v : BitVec w) (m : Memory w) (a : Nat) :
    Memory.load? ((k, v) :: m) a = if a = k then some v else m.load? a := rfl

/-- A read after a write: the written value at its address, the old content everywhere else. -/
theorem Memory.load?_store (m : Memory w) (a : Nat) (v : BitVec w) (k : Nat) :
    (m.store a v).load? k = if k = a then some v else m.load? k := by
  induction m with
  | nil => rfl
  | cons c m ih =>
    obtain ⟨j, u⟩ := c
    simp only [Memory.store]
    split
    · simp only [Memory.load?_cons]
    · split
      · subst_vars; simp only [Memory.load?_cons]; split <;> rfl
      · simp only [Memory.load?_cons, ih]; split <;> [(subst_vars; rw [if_neg (by omega)]); rfl]

@[simp] theorem Memory.load?_store_same (m : Memory w) (a : Nat) (v : BitVec w) : (m.store a v).load? a = some v := by
  rw [Memory.load?_store, if_pos rfl]

theorem Memory.load?_store_ne (m : Memory w) {a k : Nat} (v : BitVec w) (h : k ≠ a) :
    (m.store a v).load? k = m.load? k := by
  rw [Memory.load?_store, if_neg h]

/-- A written cell's address is the address written or one already listed. -/
theorem Memory.mem_store {m : Memory w} {a : Nat} {v : BitVec w} {c : Nat × BitVec w} (h : c ∈ m.store a v) :
    c = (a, v) ∨ c ∈ m := by
  induction m with
  | nil => exact .inl (by simpa [Memory.store] using h)
  | cons d m ih =>
    obtain ⟨j, u⟩ := d
    simp only [Memory.store] at h
    split at h
    · exact (List.mem_cons.1 h).imp_right id
    · split at h
      · exact (List.mem_cons.1 h).imp_right (List.mem_cons_of_mem _)
      · rcases List.mem_cons.1 h with h | h
        · exact .inr (h ▸ List.mem_cons_self)
        · exact (ih h).imp_right (List.mem_cons_of_mem _)

/-- A write keeps the canonical form. -/
theorem Memory.store_wf {m : Memory w} (h : m.wf) (a : Nat) (v : BitVec w) : (m.store a v).wf := by
  induction m with
  | nil => simp [Memory.store, Memory.wf]
  | cons d m ih =>
    obtain ⟨j, u⟩ := d
    have hj : ∀ c ∈ m, j < c.1 := fun c hc =>
      (List.pairwise_cons.1 h).1 _ (List.mem_map_of_mem hc)
    have hm : Memory.wf m := (List.pairwise_cons.1 h).2
    simp only [Memory.store]
    split
    · refine List.pairwise_cons.2 ⟨fun x hx => ?_, h⟩
      obtain ⟨c, hc, rfl⟩ := List.mem_map.1 hx
      rcases List.mem_cons.1 hc with rfl | hc
      · assumption
      · have := hj c hc; omega
    · split
      · subst_vars
        exact List.pairwise_cons.2 ⟨fun x hx => by
          obtain ⟨c, hc, rfl⟩ := List.mem_map.1 hx; exact hj c hc, hm⟩
      · refine List.pairwise_cons.2 ⟨fun x hx => ?_, ih hm⟩
        obtain ⟨c, hc, rfl⟩ := List.mem_map.1 hx
        rcases Memory.mem_store hc with rfl | hc
        · change j < a; omega
        · exact hj c hc

/-- A write below the bound keeps every listed address below it. -/
theorem Memory.store_below {m : Memory w} {n : Nat} (h : m.below n) {a : Nat} (ha : a < n) (v : BitVec w) :
    (m.store a v).below n := by
  intro c hc
  rcases Memory.mem_store hc with rfl | hc
  · exact ha
  · exact h c hc

/-- No address below the first listed one is listed. -/
theorem Memory.load?_none_of_lt {m : Memory w} {a : Nat} (h : ∀ c ∈ m, a < c.1) : m.load? a = none := by
  induction m with
  | nil => rfl
  | cons d m ih =>
    have := h d List.mem_cons_self
    rw [show d = (d.1, d.2) from rfl, Memory.load?_cons, if_neg (by omega)]
    exact ih fun c hc => h c (List.mem_cons_of_mem _ hc)

/-- Equal contents are equal data: two spaces in canonical form that load the same at every address are the same list. -/
theorem Memory.ext_load {m m' : Memory w} (h : m.wf) (h' : m'.wf) (heq : ∀ a, m.load? a = m'.load? a) : m = m' := by
  have first : ∀ {k : Nat} {v : BitVec w} {l : Memory w}, Memory.wf ((k, v) :: l) → ∀ c ∈ l, k < c.1 :=
    fun hw c hc => (List.pairwise_cons.1 hw).1 _ (List.mem_map_of_mem hc)
  induction m generalizing m' with
  | nil =>
    cases m' with
    | nil => rfl
    | cons d m' => obtain ⟨k, v⟩ := d; have := heq k; simp [Memory.load?_cons] at this
  | cons d m ih =>
    cases m' with
    | nil => obtain ⟨k, v⟩ := d; have := heq k; simp [Memory.load?_cons] at this
    | cons d' m' =>
      obtain ⟨k, v⟩ := d
      obtain ⟨k', v'⟩ := d'
      have hk : k = k' := by
        rcases Nat.lt_trichotomy k k' with hlt | he | hlt
        · have := heq k
          rw [Memory.load?_cons, if_pos rfl, Memory.load?_none_of_lt] at this
          · cases this
          · intro c hc
            rcases List.mem_cons.1 hc with rfl | hc
            · exact hlt
            · exact hlt.trans (first h' c hc)
        · exact he
        · have := heq k'
          rw [Memory.load?_cons (k := k'), if_pos rfl, Memory.load?_none_of_lt] at this
          · cases this
          · intro c hc
            rcases List.mem_cons.1 hc with rfl | hc
            · exact hlt
            · exact hlt.trans (first h c hc)
      subst hk
      have hv : v = v' := by simpa [Memory.load?_cons] using heq k
      subst hv
      refine congrArg _ (ih (List.pairwise_cons.1 h).2 (List.pairwise_cons.1 h').2 fun a => ?_)
      have := heq a
      simp only [Memory.load?_cons] at this
      split at this
      · subst_vars
        rw [Memory.load?_none_of_lt (first h), Memory.load?_none_of_lt (first h')]
      · exact this

end

/-! ### One element of PAY or COV -/

section
variable {P : Params} (b : Block P)

theorem Block.readPay_writePay (a : Nat) (v : Byte) (k : Nat) :
    (b.writePay a v).readPay k = if k = a then v else b.readPay k := by
  simp only [Block.readPay, Block.writePay_pay, Memory.load?_store]; split <;> rfl

theorem Block.readCov_writeCov (i : Nat) (v : BitVec P.sw) (k : Nat) :
    (b.writeCov i v).readCov k = if k = i then v else b.readCov k := by
  simp only [Block.readCov, Block.writeCov_cov, Memory.load?_store]; split <;> rfl

theorem Block.readCov_putSlot (i : Nat) (x : Bit) (k : Nat) :
    (b.putSlot i x).readCov k = if k = i then putBit b.bilevel (b.readCov i) x else b.readCov k :=
  b.readCov_writeCov i _ k

/-- After bytes are stored from `a` upward: byte `k - a` at the addresses they cover, the old byte elsewhere. -/
theorem Block.readPay_storeBytes (a : Nat) (bs : Payload) (k : Nat) :
    (b.storeBytes a bs).readPay k = if a ≤ k ∧ k < a + bs.length then bs.getD (k - a) 0 else b.readPay k := by
  induction bs generalizing b a with
  | nil => rw [if_neg (by simp)]; rfl
  | cons v bs ih =>
    rw [Block.storeBytes, ih, Block.readPay_writePay, List.length_cons]
    by_cases h : k = a
    · subst h; rw [if_neg (by omega), if_pos rfl, if_pos (by omega)]; simp
    · rw [if_neg h]
      by_cases h2 : a + 1 ≤ k ∧ k < a + 1 + bs.length
      · rw [if_pos h2, if_pos (by omega), show k - a = k - (a + 1) + 1 by omega]; simp
      · rw [if_neg h2, if_neg (by omega)]

/-- After bits are put into the slots from `i` upward: each covered slot's sample has its bit put in, every other slot
keeps its sample. -/
theorem Block.readCov_putBits (i : Nat) (s : BitSeq) (k : Nat) :
    (b.putBits i s).readCov k =
      if i ≤ k ∧ k < i + s.length then putBit b.bilevel (b.readCov k) (bitAt s (k - i)) else b.readCov k := by
  induction s generalizing b i with
  | nil => rw [if_neg (by simp)]; rfl
  | cons x s ih =>
    rw [Block.putBits, ih, Block.readCov_putSlot, List.length_cons, Block.putSlot_bilevel]
    by_cases h : k = i
    · subst h; rw [if_neg (by omega), if_pos rfl, if_pos (by omega)]; simp [bitAt]
    · rw [if_neg h]
      by_cases h2 : i + 1 ≤ k ∧ k < i + 1 + s.length
      · rw [if_pos h2, if_pos (by omega), show k - i = k - (i + 1) + 1 by omega]; simp [bitAt]
      · rw [if_neg h2, if_neg (by omega)]

/-- What stored bytes do to PAY depends on PAY alone. -/
theorem Block.storeBytes_pay_congr (b b' : Block P) (h : b.pay = b'.pay) (a : Nat) (bs : Payload) :
    (b.storeBytes a bs).pay = (b'.storeBytes a bs).pay := by
  induction bs generalizing b b' a with
  | nil => exact h
  | cons v bs ih => exact ih _ _ (by rw [Block.writePay_pay, Block.writePay_pay, h]) _

/-! ### The canonical form and the address bound, for the loops -/

theorem Block.storeBytes_wf (h : b.pay.wf) (a : Nat) (bs : Payload) : (b.storeBytes a bs).pay.wf := by
  induction bs generalizing b a with
  | nil => exact h
  | cons v bs ih => exact ih _ (Memory.store_wf h _ _) _

theorem Block.storeBytes_below {n : Nat} (h : b.pay.below n) (a : Nat) (bs : Payload) (hn : a + bs.length ≤ n) :
    (b.storeBytes a bs).pay.below n := by
  induction bs generalizing b a with
  | nil => exact h
  | cons v bs ih =>
    rw [List.length_cons] at hn
    exact ih _ (Memory.store_below h (by omega) _) _ (by omega)

theorem Block.putBits_wf (h : b.cov.wf) (i : Nat) (s : BitSeq) : (b.putBits i s).cov.wf := by
  induction s generalizing b i with
  | nil => exact h
  | cons x s ih => exact ih _ (Memory.store_wf h _ _) _

theorem Block.putBits_below {n : Nat} (h : b.cov.below n) (i : Nat) (s : BitSeq) (hn : i + s.length ≤ n) :
    (b.putBits i s).cov.below n := by
  induction s generalizing b i with
  | nil => exact h
  | cons x s ih =>
    rw [List.length_cons] at hn
    exact ih _ (Memory.store_below h (by omega) _) _ (by omega)

theorem Block.writeSamples_wf (h : b.cov.wf) (i : Nat) (vs : List (BitVec P.sw)) : (b.writeSamples i vs).cov.wf := by
  induction vs generalizing b i with
  | nil => exact h
  | cons v vs ih => exact ih _ (Memory.store_wf h _ _) _

theorem Block.setPixel_wf (h : b.cov.wf) (x y : Nat) (vs : List (BitVec P.sw)) : (b.setPixel x y vs).cov.wf :=
  b.writeSamples_wf h _ vs

end

end Sys2Proof.Machine
end

