-- ==== Sys2Proof/Laws/Codec.lean ====
section
/-! SUPPORT. The codec's pure functions (spec/40_bitstream_codec.md): lengths, elements, and what a byte of the decoder
depends on. -/

namespace Sys2Proof.Machine

/-! ### Elements of a bit sequence -/

@[simp] theorem bitAt_nil (k : Nat) : bitAt [] k = 0 := rfl

theorem bitAt_of_length_le {s : BitSeq} {k : Nat} (h : s.length ≤ k) : bitAt s k = 0 := by
  simp [bitAt, h]

theorem bitAt_append_left {s t : BitSeq} {k : Nat} (h : k < s.length) : bitAt (s ++ t) k = bitAt s k := by
  simp [bitAt, List.getElem?_append_left h]

theorem bitAt_append_right {s t : BitSeq} {k : Nat} (h : s.length ≤ k) : bitAt (s ++ t) k = bitAt t (k - s.length) := by
  simp [bitAt, List.getElem?_append_right h]

theorem bitAt_take {s : BitSeq} {n k : Nat} (h : k < n) : bitAt (s.take n) k = bitAt s k := by
  simp [bitAt, h]

theorem bitAt_drop (s : BitSeq) (n k : Nat) : bitAt (s.drop n) k = bitAt s (n + k) := by
  simp [bitAt, List.getElem?_drop]

/-- An element of a sequence made by counting. -/
theorem bitAt_map_range {n k : Nat} (f : Nat → Bit) (h : k < n) : bitAt ((List.range n).map f) k = f k := by
  simp [bitAt, h]

/-- Two sequences of one length with the same elements are equal. -/
theorem bitSeq_ext {s t : BitSeq} (hl : s.length = t.length) (h : ∀ k < s.length, bitAt s k = bitAt t k) : s = t := by
  refine List.ext_getElem hl fun k h1 h2 => ?_
  simpa [bitAt, h1, h2] using h k h1

/-! ### The encoder function -/

@[simp] theorem byteBits_length (v : Byte) : (byteBits v).length = 8 := by simp [byteBits]

theorem bitAt_byteBits (v : Byte) {m : Nat} (h : m < 8) : bitAt (byteBits v) m = v.extractLsb' (7 - m) 1 :=
  bitAt_map_range _ h

@[simp] theorem bytesToBits_nil : bytesToBits [] = [] := rfl

theorem bytesToBits_cons (v : Byte) (p : Payload) : bytesToBits (v :: p) = byteBits v ++ bytesToBits p := rfl

@[simp] theorem bytesToBits_length (p : Payload) : (bytesToBits p).length = 8 * p.length := by
  induction p with
  | nil => rfl
  | cons v p ih => rw [bytesToBits_cons, List.length_append, ih, byteBits_length, List.length_cons]; omega

/-- Bit `8*k + m` of the encoder's output is bit `7 - m` of byte `k` (R120). -/
theorem bitAt_bytesToBits (p : Payload) {k m : Nat} (hk : k < p.length) (hm : m < 8) :
    bitAt (bytesToBits p) (8 * k + m) = (p.getD k 0).extractLsb' (7 - m) 1 := by
  induction p generalizing k with
  | nil => simp at hk
  | cons v p ih =>
    rw [bytesToBits_cons]
    cases k with
    | zero => rw [bitAt_append_left (by simpa using hm), Nat.mul_zero, Nat.zero_add, bitAt_byteBits v hm]; rfl
    | succ k =>
      rw [bitAt_append_right (by simp; omega), byteBits_length, show 8 * (k + 1) + m - 8 = 8 * k + m by omega,
        ih (by simpa using hk)]
      rfl

/-! ### The decoder function -/

@[simp] theorem bitsToBytes_length (s : BitSeq) (l : Option Nat) : (bitsToBytes s l).length = availableBits s l / 8 := by
  simp [bitsToBytes]

theorem availableBits_le (s : BitSeq) (l : Option Nat) : availableBits s l ≤ s.length := by
  cases l <;> simp [availableBits]

theorem bitsToBytes_getD (s : BitSeq) (l : Option Nat) {k : Nat} (h : k < availableBits s l / 8) :
    (bitsToBytes s l).getD k 0 = byteFrom s k := by
  simp [bitsToBytes, h]

/-- A byte of the decoder depends on its own group of eight bits alone. -/
theorem byteFrom_congr {s t : BitSeq} {k j : Nat} (h : ∀ m < 8, bitAt s (8 * k + m) = bitAt t (8 * j + m)) :
    byteFrom s k = byteFrom t j := by
  simp only [byteFrom, h 1 (by decide), h 2 (by decide), h 3 (by decide), h 4 (by decide), h 5 (by decide),
    h 6 (by decide), h 7 (by decide)]
  rw [show bitAt s (8 * k) = bitAt t (8 * j) from h 0 (by decide)]

/-- The sum of R122, without narrowing: a group of eight bits makes a number below 256. -/
theorem byteFrom_toNat (s : BitSeq) (k : Nat) :
    (byteFrom s k).toNat =
      (bitAt s (8 * k)).toNat * 128 + (bitAt s (8 * k + 1)).toNat * 64 + (bitAt s (8 * k + 2)).toNat * 32 +
        (bitAt s (8 * k + 3)).toNat * 16 + (bitAt s (8 * k + 4)).toNat * 8 + (bitAt s (8 * k + 5)).toNat * 4 +
        (bitAt s (8 * k + 6)).toNat * 2 + (bitAt s (8 * k + 7)).toNat := by
  have h : ∀ x : Bit, x.toNat ≤ 1 := fun x => by have := x.isLt; omega
  have := h (bitAt s (8 * k)); have := h (bitAt s (8 * k + 1)); have := h (bitAt s (8 * k + 2))
  have := h (bitAt s (8 * k + 3)); have := h (bitAt s (8 * k + 4)); have := h (bitAt s (8 * k + 5))
  have := h (bitAt s (8 * k + 6)); have := h (bitAt s (8 * k + 7))
  rw [byteFrom, BitVec.toNat_ofNat, Nat.mod_eq_of_lt (by omega)]

/-- The eight bits of a byte make the byte again. -/
theorem byteFrom_byteBits (v : Byte) : byteFrom (byteBits v) 0 = v := by
  revert v; decide

/-- A group that holds the bits of `v`, bit 7 first, is decoded to `v`. -/
theorem byteFrom_eq {s : BitSeq} {k : Nat} {v : Byte} (h : ∀ m < 8, bitAt s (8 * k + m) = v.extractLsb' (7 - m) 1) :
    byteFrom s k = v := by
  refine (byteFrom_congr fun m hm => ?_).trans (byteFrom_byteBits v)
  rw [h m hm, Nat.mul_zero, Nat.zero_add, bitAt_byteBits v hm]

/-- Bit `7 - m` of a decoded byte is element `m` of its group (R122). -/
theorem extractLsb_byteFrom (s : BitSeq) (k : Nat) {m : Nat} (hm : m < 8) :
    (byteFrom s k).extractLsb' (7 - m) 1 = bitAt s (8 * k + m) := by
  have key : ∀ a b c d e f g h : Bit, ∀ j : Fin 8,
      (byteFrom [a, b, c, d, e, f, g, h] 0).extractLsb' (7 - j.val) 1 = bitAt [a, b, c, d, e, f, g, h] j.val := by
    decide +kernel
  have := key (bitAt s (8 * k)) (bitAt s (8 * k + 1)) (bitAt s (8 * k + 2)) (bitAt s (8 * k + 3)) (bitAt s (8 * k + 4))
    (bitAt s (8 * k + 5)) (bitAt s (8 * k + 6)) (bitAt s (8 * k + 7)) ⟨m, hm⟩
  have split8 : ∀ {q : Nat → Prop}, q 0 → q 1 → q 2 → q 3 → q 4 → q 5 → q 6 → q 7 → ∀ j < 8, q j := by
    intro q h0 h1 h2 h3 h4 h5 h6 h7 j hj
    obtain rfl | rfl | rfl | rfl | rfl | rfl | rfl | rfl :
      j = 0 ∨ j = 1 ∨ j = 2 ∨ j = 3 ∨ j = 4 ∨ j = 5 ∨ j = 6 ∨ j = 7 := by omega
    all_goals assumption
  refine (congrArg (BitVec.extractLsb' (7 - m) 1) (byteFrom_congr ?_)).trans (this.trans ?_)
  · exact split8 rfl rfl rfl rfl rfl rfl rfl rfl
  · exact split8 (q := fun j => bitAt _ j = bitAt s (8 * k + j)) rfl rfl rfl rfl rfl rfl rfl rfl m hm

/-! ### Payload bytes in and out of PAY -/

section
variable {P : Params} (b : Block P)

@[simp] theorem Block.loadBytes_length (n : Nat) : (b.loadBytes n).length = n := by simp [Block.loadBytes]

theorem Block.loadBytes_getD {n k : Nat} (h : k < n) : (b.loadBytes n).getD k 0 = b.readPay k := by
  simp [Block.loadBytes, h]

end

end Sys2Proof.Machine
end

