-- ==== Sys2Proof/Laws/Header.lean ====
section
/-! SUPPORT. The header width, the header and the capacity check (spec/41_header_engine.md), and the bound of the
capacity (spec/00_scope.md R9). -/

namespace Sys2Proof.Machine

/-- `ceil_log2` is at most `h` exactly where `2^h` reaches its argument (R10). -/
theorem ceilLog2_le_iff {n : Nat} (hn : 1 ≤ n) (h : Nat) : ceilLog2 n ≤ h ↔ n ≤ 2 ^ h := by
  unfold ceilLog2
  split
  · have := Nat.one_le_two_pow (n := h); omega
  · rw [Nat.succ_le_iff, Nat.log2_lt (by omega)]; omega

/-- The header width is at most `h` exactly where `2^h` reaches the capacity in bytes (R140, R141). -/
theorem headerWidth_le_iff (c h : Nat) : headerWidth c ≤ h ↔ c / 8 ≤ 2 ^ h := by
  unfold headerWidth
  split
  · have := Nat.one_le_two_pow (n := h); omega
  · exact ceilLog2_le_iff (by omega) h

/-- A cover can hold its own header (R147). -/
theorem headerWidth_le_self (c : Nat) : headerWidth c ≤ c := by
  rw [headerWidth_le_iff]; have := c.lt_two_pow_self; omega

/-- A header width fits where the capacity fits (R9). -/
theorem headerWidth_le_of_lt {c w : Nat} (h : c < 2 ^ w) : headerWidth c ≤ w := by
  rw [headerWidth_le_iff]; omega

/-! ### Building and parsing a header -/

@[simp] theorem encodeHeader_length (len h : Nat) : (encodeHeader len h).length = h := by simp [encodeHeader]

theorem bitAt_encodeHeader (len : Nat) {h j : Nat} (hj : j < h) :
    bitAt (encodeHeader len h) j = BitVec.ofNat 1 (len / 2 ^ (h - 1 - j) % 2) :=
  bitAt_map_range _ hj

@[simp] theorem decodeHeader_nil : decodeHeader [] = 0 := rfl

/-- One more bit at the end doubles the value and adds the bit (R152). -/
theorem decodeHeader_concat (s : BitSeq) (x : Bit) : decodeHeader (s ++ [x]) = 2 * decodeHeader s + x.toNat := by
  simp [decodeHeader]

/-- A header of `h` bits is below `2^h` (R152). -/
theorem decodeHeader_lt (s : BitSeq) : decodeHeader s < 2 ^ s.length := by
  induction s using List.reverseRecOn with
  | nil => decide
  | append_singleton s x ih =>
    rw [decodeHeader_concat, List.length_append, List.length_singleton, Nat.pow_succ]
    have := x.isLt; omega

/-- The value of a header, weighted bit by bit, most significant first (R152). -/
theorem decodeHeader_eq_sum (s : BitSeq) :
    decodeHeader s = ((List.range s.length).map fun j => (bitAt s j).toNat * 2 ^ (s.length - 1 - j)).sum := by
  induction s using List.reverseRecOn with
  | nil => rfl
  | append_singleton s x ih =>
    rw [decodeHeader_concat, List.length_append, List.length_singleton, List.range_succ, List.map_append,
      List.sum_append, ih]
    simp only [List.map_cons, List.map_nil, List.sum_singleton]
    rw [bitAt_append_right (by simp)]
    simp only [Nat.sub_self, Nat.add_sub_cancel, Nat.pow_zero, Nat.mul_one]
    congr 1
    rw [← List.sum_map_mul_left]
    refine congrArg _ (List.map_congr_left fun j hj => ?_)
    have hj := List.mem_range.1 hj
    rw [bitAt_append_left hj, Nat.mul_left_comm, ← Nat.pow_succ']
    congr 2; omega

/-! ### The capacity check -/

/-- The check passes exactly where neither test of R144 fails. -/
theorem capacityCheck_eq_none {len c h : Nat} : capacityCheck len c h = none ↔ 8 * len + h ≤ c ∧ len < 2 ^ h := by
  unfold capacityCheck; split <;> [simp; split <;> simp] <;> omega

/-! ### The capacity of a block -/

section
variable {P : Params} (b : Block P)

/-- The capacity fits `CAPW` bits (R9). -/
theorem Block.cap_lt : b.cap < 2 ^ P.capw := by
  have hw := b.width.isLt; have hh := b.height.isLt; have hc := b.channels.isLt
  rw [Block.cap, Params.capw, Nat.two_mul, Nat.pow_add, Nat.pow_add]
  exact Nat.mul_lt_mul'' (Nat.mul_lt_mul'' hw hh) hc

/-- The header width of a block's capacity is at most `CAPW` (R9, R28). -/
theorem Block.headerWidth_cap_le : headerWidth b.cap ≤ P.capw := headerWidth_le_of_lt b.cap_lt

/-- The `HW` register holds the header width of any capacity whole (R8's constraint on `HWW`). -/
theorem Block.toNat_headerWidth : (BitVec.ofNat P.hww (headerWidth b.cap)).toNat = headerWidth b.cap := by
  rw [BitVec.toNat_ofNat, Nat.mod_eq_of_lt]
  exact Nat.lt_of_le_of_lt b.headerWidth_cap_le P.hww_fits

end

end Sys2Proof.Machine
end

