-- ==== Sys2Proof/Laws/Mapper.lean ====
section
/-! SUPPORT. The slots of the cover (spec/42_channel_mapper.md): one bit in one sample, reading a run of slots, writing
a stream. -/

namespace Sys2Proof.Machine

section
variable {P : Params}

/-- Reading back the bit that was put in, in both modes (R175). -/
@[simp] theorem lsb_putBit (m : Bit) (v : BitVec P.sw) (x : Bit) : lsb (putBit m v x) = x := by
  have hsw := P.sw_pos
  have two : ∀ y : Bit, y = 0#1 ∨ y = 1#1 := by decide
  refine BitVec.eq_of_getLsbD_eq fun j hj => ?_
  obtain rfl : j = 0 := by omega
  rcases two x with rfl | rfl <;> rcases two m with rfl | rfl
  · simp [lsb, putBit]
  · simp [lsb, putBit]
  · simp [lsb, putBit]; omega
  · simp only [lsb, putBit, Params.maxval]; simp [BitVec.getLsbD_ofNat]; omega

/-- Putting in a second bit leaves no trace of the first (R175). -/
theorem putBit_putBit (m : Bit) (v : BitVec P.sw) (x y : Bit) : putBit m (putBit m v x) y = putBit m v y := by
  have two : ∀ z : Bit, z = 0#1 ∨ z = 1#1 := by decide
  rcases two m with rfl | rfl <;> rcases two x with rfl | rfl <;> rcases two y with rfl | rfl <;>
    simp [putBit] <;> ext j hj <;> simp <;> cases v[j] <;> simp

variable (b : Block P)

/-! ### Reading a run of slots -/

@[simp] theorem Block.readLsbs_length (i n : Nat) : (b.readLsbs i n).length = n := by simp [Block.readLsbs]

theorem Block.bitAt_readLsbs (i : Nat) {n j : Nat} (h : j < n) : bitAt (b.readLsbs i n) j = lsb (b.readCov (i + j)) := by
  simp [bitAt, Block.readLsbs, h]

/-- A run of LSBs depends on the LSBs of its own slots alone. -/
theorem Block.readLsbs_congr {b' : Block P} {i n : Nat}
    (h : ∀ k, i ≤ k → k < i + n → lsb (b.readCov k) = lsb (b'.readCov k)) : b.readLsbs i n = b'.readLsbs i n := by
  refine bitSeq_ext (by simp) fun j hj => ?_
  rw [Block.readLsbs_length] at hj
  rw [b.bitAt_readLsbs i hj, b'.bitAt_readLsbs i hj]
  exact h _ (by omega) (by omega)

/-! ### Writing a stream -/

@[simp] theorem fillerBits_none (n : Nat) : fillerBits none n = [] := rfl

theorem fillerBits_some_length (f : Nat → Bit) (n : Nat) : (fillerBits (some f) n).length = n := by simp [fillerBits]

theorem fillerBits_length_le (f : Option (Nat → Bit)) (n : Nat) : (fillerBits f n).length ≤ n := by
  cases f <;> simp [fillerBits]

/-- A slot the stream covers holds its bit of the stream (R180). -/
theorem Block.readCov_writeStream_of_lt (f : Option (Nat → Bit)) (s : BitSeq) {k : Nat} (h : k < s.length) :
    (b.writeStream f s).readCov k = putBit b.bilevel (b.readCov k) (bitAt s k) := by
  rw [Block.writeStream, Block.readCov_putBits, if_neg (by omega), Block.readCov_putBits, if_pos (by omega), Nat.sub_zero]

/-- With no filler, a slot past the stream keeps its sample (R181). -/
theorem Block.readCov_writeStream_none (s : BitSeq) {k : Nat} (h : s.length ≤ k) :
    (b.writeStream none s).readCov k = b.readCov k := by
  rw [Block.writeStream, fillerBits_none, Block.putBits, Block.readCov_putBits, if_neg (by omega)]

/-- With a filler, a slot of the cover past the stream holds its filler bit (R182). -/
theorem Block.readCov_writeStream_some (f : Nat → Bit) (s : BitSeq) {k : Nat} (h : s.length ≤ k) (hc : k < b.cap) :
    (b.writeStream (some f) s).readCov k = putBit b.bilevel (b.readCov k) (f (k - s.length)) := by
  rw [Block.writeStream, Block.readCov_putBits, fillerBits_some_length, if_pos (by omega), Block.putBits_bilevel,
    Block.readCov_putBits, if_neg (by omega), fillerBits, bitAt_map_range _ (by omega)]

/-- A slot past the cover keeps its sample (R184). -/
theorem Block.readCov_writeStream_of_cap_le (f : Option (Nat → Bit)) (s : BitSeq) {k : Nat} (h : s.length ≤ b.cap)
    (hc : b.cap ≤ k) : (b.writeStream f s).readCov k = b.readCov k := by
  have := fillerBits_length_le f (b.cap - s.length)
  rw [Block.writeStream, Block.readCov_putBits, if_neg (by omega), Block.readCov_putBits, if_neg (by omega)]

theorem Block.writeStream_wf (h : b.cov.wf) (f : Option (Nat → Bit)) (s : BitSeq) : (b.writeStream f s).cov.wf :=
  Block.putBits_wf _ (Block.putBits_wf _ h _ _) _ _

theorem Block.writeStream_below {n : Nat} (h : b.cov.below n) (hn : b.cap ≤ n) (f : Option (Nat → Bit)) (s : BitSeq)
    (hs : s.length ≤ b.cap) : (b.writeStream f s).cov.below n := by
  have := fillerBits_length_le f (b.cap - s.length)
  exact Block.putBits_below _ (Block.putBits_below _ h _ _ (by omega)) _ _ (by omega)

/-- What a written stream does to the cover depends on the cover, the mode and the dimensions alone. -/
theorem Block.writeStream_cov_congr (b b' : Block P) (hcov : b.cov = b'.cov) (hmode : b.bilevel = b'.bilevel)
    (hcap : b.cap = b'.cap) (f : Option (Nat → Bit)) (s : BitSeq) : (b.writeStream f s).cov = (b'.writeStream f s).cov := by
  have key : ∀ (t : BitSeq) (i : Nat) (c c' : Block P), c.cov = c'.cov → c.bilevel = c'.bilevel →
      (c.putBits i t).cov = (c'.putBits i t).cov := by
    intro t
    induction t with
    | nil => intro i c c' h _; exact h
    | cons x t ih =>
      intro i c c' h hm
      refine ih _ _ _ ?_ (by simpa using hm)
      simp only [Block.putSlot, Block.writeCov_cov, Block.readCov, h, hm]
  rw [Block.writeStream, Block.writeStream, hcap]
  exact key _ _ _ _ (key _ _ _ _ hcov hmode) (by simpa using hmode)

end

end Sys2Proof.Machine
end

