-- ==== Sys2Proof/Laws/Status.lean ====
section
/-! SUPPORT. The fields of STATUS and MODE, read back after each way of writing them. -/

namespace Sys2Proof.Machine

@[simp] theorem statusErr_of (f : Bit) (e : BitVec 4) : statusErr (statusOf f e) = e := by
  revert f e; decide

@[simp] theorem statusFault_of (f : Bit) (e : BitVec 4) : statusFault (statusOf f e) = f := by
  revert f e; decide

/-- STATUS is its two fields. -/
theorem statusOf_fields (s : BitVec 5) : statusOf (statusFault s) (statusErr s) = s := by
  revert s; decide

/-- STATUS as a number: `ERR` is bits [3:0], `FAULT` bit [4] (R36). -/
theorem status_toNat (s : BitVec 5) : s.toNat = 16 * (statusFault s).toNat + (statusErr s).toNat := by
  revert s; decide

/-- MODE as a number: `FILL` is bits [1:0], `BILEVEL` bit [2] (R25). -/
theorem mode_toNat (m : BitVec 3) : m.toNat = 4 * (modeBilevel m).toNat + (modeFill m).toNat := by
  revert m; decide

@[simp] theorem statusErr_succeeded (s : BitVec 5) : statusErr (statusSucceeded s) = 0 := by
  rw [statusSucceeded, statusErr_of]

@[simp] theorem statusFault_succeeded (s : BitVec 5) : statusFault (statusSucceeded s) = statusFault s := by
  rw [statusSucceeded, statusFault_of]

@[simp] theorem statusErr_raised (c : Cause) : statusErr (statusRaised c) = c.code := by
  rw [statusRaised, statusErr_of]

@[simp] theorem statusFault_raised (c : Cause) : statusFault (statusRaised c) = 1 := by
  rw [statusRaised, statusFault_of]

@[simp] theorem statusSucceeded_succeeded (s : BitVec 5) : statusSucceeded (statusSucceeded s) = statusSucceeded s := by
  rw [statusSucceeded, statusFault_succeeded, ← statusSucceeded]

@[simp] theorem statusSucceeded_of (f : Bit) (e : BitVec 4) : statusSucceeded (statusOf f e) = statusOf f 0 := by
  rw [statusSucceeded, statusFault_of]

@[simp] theorem modeFill_of (x : Bit) (f : BitVec 2) : modeFill (modeOf x f) = f := by
  revert x f; decide

@[simp] theorem modeBilevel_of (x : Bit) (f : BitVec 2) : modeBilevel (modeOf x f) = x := by
  revert x f; decide

/-- The number of a legal filler mode names that mode (R27). -/
@[simp] theorem fillOf_code (f : Fill) : fillOf (fillCode f) = some f := by
  cases f <;> rfl

/-- Only the reserved value 3 names no filler mode (R27). -/
theorem fillOf_eq_none (x : BitVec 2) : fillOf x = none ↔ x = 3 := by
  revert x; decide

/-- No cause has code 0. -/
@[simp] theorem Cause.code_ne_zero (c : Cause) : ¬ c.code = 0#4 := by
  cases c <;> decide

section
variable {P : Params} (b : Block P)

@[simp] theorem Block.succeed_err : b.succeed.err = 0 := statusErr_succeeded _
@[simp] theorem Block.succeed_faultFlag : b.succeed.faultFlag = b.faultFlag := statusFault_succeeded _
@[simp] theorem Block.raise_err (c : Cause) : (b.raise c).err = c.code := statusErr_raised c
@[simp] theorem Block.raise_faultFlag (c : Cause) : (b.raise c).faultFlag = 1 := statusFault_raised c

/-! ### The filler mode by the number in MODE (R27) -/

theorem Block.fill?_eq_none : b.fill? = none ↔ b.mode.toNat % 4 = 3 := by
  unfold Block.fill?; generalize b.mode = m; revert m; decide

theorem Block.fill?_eq_no_filler : b.fill? = some .none ↔ b.mode.toNat % 4 = 0 := by
  unfold Block.fill?; generalize b.mode = m; revert m; decide

theorem Block.fill?_eq_zeroes : b.fill? = some .zeroes ↔ b.mode.toNat % 4 = 1 := by
  unfold Block.fill?; generalize b.mode = m; revert m; decide

theorem Block.fill?_eq_random : b.fill? = some .random ↔ b.mode.toNat % 4 = 2 := by
  unfold Block.fill?; generalize b.mode = m; revert m; decide

end

end Sys2Proof.Machine
end

