-- ==== Sys2Proof/Laws/Ops.lean ====
section
/-! SUPPORT. What one command can do, said once: `exec` is the block's command put back into the machine, and a command
that gives a next block either raised one of its causes or had its whole effect. -/

namespace Sys2Proof.Machine

section
variable {P : Params}

/-- The commands of the block in one function, with the draws `rnd`. -/
def Block.command (rnd : Nat → Bit) (b : Block P) : Instr → Result P
  | .nop => b.cmdNop
  | .eclr => b.cmdEclr
  | .bclr => b.cmdBclr
  | .bpush => b.cmdBpush
  | .bget => b.cmdBget
  | .bytes2bits => b.cmdBytes2bits
  | .bits2bytes => b.cmdBits2bytes
  | .bits2bytesl => b.cmdBits2bytesl
  | .bits2bytesd => b.cmdBits2bytesd
  | .hwidth => b.cmdHwidth
  | .validate => b.cmdValidate
  | .enchdr => b.cmdEnchdr
  | .dechdr => b.cmdDechdr
  | .map => b.cmdMap
  | .rdlsb => b.cmdRdlsb
  | .wrlsb => b.cmdWrlsb
  | .readall => b.cmdReadall
  | .wrbits => b.cmdWrbits rnd
  | .hide => b.cmdHide rnd
  | .reveal => b.cmdReveal

/-- What a decoder command with the given limit leaves (R125, R126, R127), STATUS aside. -/
def Block.decodedBy (b : Block P) (limit : Option Nat) : Block P :=
  { b.storeBytes 0 ((bitsToBytes b.bitbuf limit).take (2 ^ P.capw)) with
    olen := olenAfter P (bitsToBytes b.bitbuf limit) }

/-- The whole effect of a command whose tests all pass, `STATUS.ERR` aside. -/
def Block.effect (rnd : Nat → Bit) (b : Block P) : Instr → Block P
  | .nop => b
  | .eclr => { b with status := statusOf 0 0 }
  | .bclr => { b with bitbuf := [] }
  | .bpush => { b with bitbuf := b.bitbuf ++ [b.bit] }
  | .bget => { b with bit := bitAt b.bitbuf b.idx.toNat }
  | .bytes2bits => { b with bitbuf := bytesToBits (b.loadBytes b.plen.toNat) }
  | .bits2bytes => b.decodedBy none
  | .bits2bytesl => b.decodedBy (some b.limit.toNat)
  | .bits2bytesd => b.decodedBy (some (8 * b.dlen.toNat))
  | .hwidth => { b with hw := BitVec.ofNat P.hww (headerWidth b.cap) }
  | .validate => b
  | .enchdr => { b with bitbuf := encodeHeader b.plen.toNat b.hw.toNat ++ b.bitbuf }
  | .dechdr =>
    { b with
      dlen := BitVec.ofNat P.capw (decodeHeader (b.bitbuf.take b.hw.toNat))
      bitbuf := b.bitbuf.drop b.hw.toNat }
  | .map =>
    let p := slotToPixel b.width.toNat b.channels.toNat b.idx.toNat
    { b with px := BitVec.ofNat P.dimw p.x, py := BitVec.ofNat P.dimw p.y, pch := BitVec.ofNat P.chw p.c }
  | .rdlsb => { b with bit := lsb (b.readCov b.idx.toNat) }
  | .wrlsb => b.putSlot b.idx.toNat b.bit
  | .readall => { b with bitbuf := b.readLsbs 0 b.cap }
  | .wrbits => b.writeStream (b.fill?.bind (fillerOf rnd)) b.bitbuf
  | .hide =>
    { b.writeStream (b.fill?.bind (fillerOf rnd)) (streamOf (headerWidth b.cap) (b.loadBytes b.plen.toNat)) with
      hw := BitVec.ofNat P.hww (headerWidth b.cap)
      bitbuf := [] }
  | .reveal =>
    let h := headerWidth b.cap
    let len := decodeHeader (b.readLsbs 0 h)
    { b.storeBytes 0 (bitsToBytes (b.readLsbs h (8 * len)) (some (8 * len))) with
      hw := BitVec.ofNat P.hww h
      dlen := BitVec.ofNat P.capw len
      olen := BitVec.ofNat P.capw len
      bitbuf := [] }

/-- Where each command's tests all pass (R232). -/
def Block.passes (b : Block P) : Instr → Prop
  | .nop => True
  | .eclr => True
  | .bclr => True
  | .bpush => b.bitbuf.length ≠ 2 ^ P.blw - 1
  | .bget => b.idx.toNat < b.bitbuf.length
  | .bytes2bits => True
  | .bits2bytes => True
  | .bits2bytesl => True
  | .bits2bytesd => True
  | .hwidth => True
  | .validate => b.hw.toNat ≤ P.capw ∧ 8 * b.plen.toNat + b.hw.toNat ≤ b.cap ∧ b.plen.toNat < 2 ^ b.hw.toNat
  | .enchdr =>
    b.hw.toNat ≤ P.capw ∧ b.plen.toNat < 2 ^ b.hw.toNat ∧ b.bitbuf.length + b.hw.toNat ≤ 2 ^ P.blw - 1
  | .dechdr => b.hw.toNat ≤ P.capw ∧ b.hw.toNat ≤ b.bitbuf.length
  | .map => b.idx.toNat < b.cap
  | .rdlsb => b.idx.toNat < b.cap
  | .wrlsb => b.idx.toNat < b.cap
  | .readall => True
  | .wrbits => b.fill? ≠ none ∧ b.bitbuf.length ≤ b.cap
  | .hide =>
    b.fill? ≠ none ∧ 8 * b.plen.toNat + headerWidth b.cap ≤ b.cap ∧ b.plen.toNat < 2 ^ headerWidth b.cap
  | .reveal => headerWidth b.cap + 8 * decodeHeader (b.readLsbs 0 (headerWidth b.cap)) ≤ b.cap

variable (b : Block P) (rnd : Nat → Bit)

/-- The decoder's bytes all have addresses, and `OLEN` counts them, wherever their number fits `OLEN` (R31, R39). -/
theorem Block.decodedBy_of_lt {l : Option Nat} (h : availableBits b.bitbuf l / 8 < 2 ^ P.capw) :
    b.decodedBy l =
      { b.storeBytes 0 (bitsToBytes b.bitbuf l) with olen := BitVec.ofNat P.capw (availableBits b.bitbuf l / 8) } := by
  rw [Block.decodedBy, olenAfter, bitsToBytes_length, if_pos h,
    List.take_of_length_le (by rw [bitsToBytes_length]; exact h.le)]

/-- ECLR's STATUS is the STATUS of success with `FAULT` cleared. -/
theorem statusSucceeded_zero : statusSucceeded (statusOf 0 0) = statusOf 0 0 := by decide

/-- A command whose tests pass has its whole effect. -/
theorem Block.command_of_passes {i : Instr} (h : b.passes i) :
    b.command rnd i = .next (b.effect rnd i).succeed := by
  cases i with
  | nop => rfl
  | eclr =>
    simp only [Block.command, Block.cmdEclr, Block.effect, Block.succeed, statusSucceeded_zero]
  | bclr => rfl
  | bpush => exact if_neg h
  | bget => exact if_neg (Nat.not_le.2 h)
  | bytes2bits => rfl
  | bits2bytes => rfl
  | bits2bytesl => rfl
  | bits2bytesd => rfl
  | hwidth => rfl
  | validate =>
    simp only [Block.command, Block.cmdValidate, if_neg (Nat.not_lt.2 h.1), capacityCheck_eq_none.2 h.2]
    rfl
  | enchdr =>
    simp only [Block.command, Block.cmdEnchdr, if_neg (Nat.not_lt.2 h.1), if_neg (Nat.not_le.2 h.2.1),
      if_neg (Nat.not_lt.2 h.2.2)]
    rfl
  | dechdr =>
    simp only [Block.command, Block.cmdDechdr, if_neg (Nat.not_lt.2 h.1), if_neg (Nat.not_lt.2 h.2)]
    rfl
  | map => exact if_neg (Nat.not_le.2 h)
  | rdlsb => exact if_neg (Nat.not_le.2 h)
  | wrlsb => exact if_neg (Nat.not_le.2 h)
  | readall => rfl
  | wrbits =>
    obtain ⟨f, hf⟩ := Option.ne_none_iff_exists'.1 h.1
    simp only [Block.command, Block.cmdWrbits, Block.effect, hf, if_neg (Nat.not_lt.2 h.2), Option.bind_some]
  | hide =>
    obtain ⟨f, hf⟩ := Option.ne_none_iff_exists'.1 h.1
    simp only [Block.command, Block.cmdHide, Block.effect, hf, capacityCheck_eq_none.2 h.2, Option.bind_some]
  | reveal => exact if_neg (Nat.not_lt.2 h)

/-- A capacity check that fails names one of its two causes (R144). -/
theorem capacityCheck_some {len c h : Nat} {e : Cause} (he : capacityCheck len c h = some e) :
    e = .payloadTooLargeForCover ∨ e = .payloadTooLargeForHeader := by
  unfold capacityCheck at he
  split at he
  · exact .inl (Option.some.inj he).symm
  · split at he
    · exact .inr (Option.some.inj he).symm
    · cases he

/-- A command whose tests do not all pass raises one of its causes. -/
theorem Block.command_of_not_passes {i : Instr} (h : ¬ b.passes i) :
    ∃ c ∈ mayRaise i, b.command rnd i = .next (b.raise c) := by
  cases i with
  | nop => exact absurd trivial h
  | eclr => exact absurd trivial h
  | bclr => exact absurd trivial h
  | bpush => exact ⟨_, List.mem_cons_self, if_pos (not_not.1 h)⟩
  | bget => exact ⟨_, List.mem_cons_self, if_pos (Nat.not_lt.1 h)⟩
  | bytes2bits => exact absurd trivial h
  | bits2bytes => exact absurd trivial h
  | bits2bytesl => exact absurd trivial h
  | bits2bytesd => exact absurd trivial h
  | hwidth => exact absurd trivial h
  | validate =>
    by_cases h1 : P.capw < b.hw.toNat
    · exact ⟨.illegalConfig, by simp [mayRaise], if_pos h1⟩
    · cases hc : capacityCheck b.plen.toNat b.cap b.hw.toNat with
      | none => exact absurd ⟨Nat.not_lt.1 h1, capacityCheck_eq_none.1 hc⟩ h
      | some e =>
        refine ⟨e, ?_, by simp only [Block.command, Block.cmdValidate, if_neg h1, hc]⟩
        rcases capacityCheck_some hc with rfl | rfl <;> simp [mayRaise]
  | enchdr =>
    by_cases h1 : P.capw < b.hw.toNat
    · exact ⟨.illegalConfig, by simp [mayRaise], if_pos h1⟩
    · by_cases h2 : 2 ^ b.hw.toNat ≤ b.plen.toNat
      · exact ⟨.payloadTooLargeForHeader, by simp [mayRaise],
          by simp only [Block.command, Block.cmdEnchdr, if_neg h1, if_pos h2]⟩
      · by_cases h3 : 2 ^ P.blw - 1 < b.bitbuf.length + b.hw.toNat
        · exact ⟨.indexOutOfRange, by simp [mayRaise],
            by simp only [Block.command, Block.cmdEnchdr, if_neg h1, if_neg h2, if_pos h3]⟩
        · exact absurd ⟨Nat.not_lt.1 h1, Nat.not_le.1 h2, Nat.not_lt.1 h3⟩ h
  | dechdr =>
    by_cases h1 : P.capw < b.hw.toNat
    · exact ⟨.illegalConfig, by simp [mayRaise], if_pos h1⟩
    · by_cases h2 : b.bitbuf.length < b.hw.toNat
      · exact ⟨.truncatedCover, by simp [mayRaise], by simp only [Block.command, Block.cmdDechdr, if_neg h1, if_pos h2]⟩
      · exact absurd ⟨Nat.not_lt.1 h1, Nat.not_lt.1 h2⟩ h
  | map => exact ⟨_, List.mem_cons_self, if_pos (Nat.not_lt.1 h)⟩
  | rdlsb => exact ⟨_, List.mem_cons_self, if_pos (Nat.not_lt.1 h)⟩
  | wrlsb => exact ⟨_, List.mem_cons_self, if_pos (Nat.not_lt.1 h)⟩
  | readall => exact absurd trivial h
  | wrbits =>
    cases hf : b.fill? with
    | none => exact ⟨.illegalConfig, by simp [mayRaise], by simp only [Block.command, Block.cmdWrbits, hf]⟩
    | some f =>
      by_cases h1 : b.cap < b.bitbuf.length
      · exact ⟨.bitsExceedCapacity, by simp [mayRaise], by simp only [Block.command, Block.cmdWrbits, hf, if_pos h1]⟩
      · exact absurd ⟨by simp [hf], Nat.not_lt.1 h1⟩ h
  | hide =>
    cases hf : b.fill? with
    | none => exact ⟨.illegalConfig, by simp [mayRaise], by simp only [Block.command, Block.cmdHide, hf]⟩
    | some f =>
      cases hc : capacityCheck b.plen.toNat b.cap (headerWidth b.cap) with
      | none => exact absurd ⟨by simp [hf], capacityCheck_eq_none.1 hc⟩ h
      | some e =>
        refine ⟨e, ?_, by simp only [Block.command, Block.cmdHide, hf, hc]⟩
        rcases capacityCheck_some hc with rfl | rfl <;> simp [mayRaise]
  | reveal => exact ⟨_, List.mem_cons_self, if_pos (Nat.not_le.1 h)⟩

/-- What a command that gives a next block can have done: raised one of its causes, or had its whole effect. -/
theorem Block.command_next {i : Instr} {d : Block P} (h : b.command rnd i = .next d) :
    (∃ c ∈ mayRaise i, d = b.raise c) ∨ (b.passes i ∧ d = (b.effect rnd i).succeed) := by
  by_cases hp : b.passes i
  · rw [b.command_of_passes rnd hp] at h
    exact .inr ⟨hp, (Host.Outcome.next.inj h).symm⟩
  · obtain ⟨c, hc, he⟩ := b.command_of_not_passes rnd hp
    rw [he] at h
    exact .inl ⟨c, hc, (Host.Outcome.next.inj h).symm⟩

/-- Every command ends in a next block (R217). -/
theorem Block.command_ends (i : Instr) : ∃ d, b.command rnd i = .next d := by
  by_cases hp : b.passes i
  · exact ⟨_, b.command_of_passes rnd hp⟩
  · obtain ⟨c, _, h⟩ := b.command_of_not_passes rnd hp
    exact ⟨_, h⟩

end

/-! ### The machine -/

/-- The commands that take draws and advance the model's counter when they succeed. -/
def drawing : Instr → Bool
  | .wrbits => true
  | .hide => true
  | _ => false

/-- The machine after a command that left the block at `b`. -/
def System.after {P : Params} (m : System P) (i : Instr) (b : Block P) : System P :=
  { m with toBlock := b, draws := if drawing i = true ∧ b.err = 0 then m.draws + 1 else m.draws }

section
variable {P : Params} (m : System P)

@[simp] theorem System.after_toBlock (i : Instr) (b : Block P) : (m.after i b).toBlock = b := rfl
@[simp] theorem System.after_host (i : Instr) (b : Block P) : (m.after i b).host = m.host := rfl
@[simp] theorem System.after_reply (i : Instr) (b : Block P) : (m.after i b).reply = m.reply := rfl

/-- A command on the machine is the block's command, put back. -/
theorem System.command_next {i : Instr} {t : System P} :
    m.command i = .next t ↔ ∃ b, m.toBlock.command (Config.draw m.draws) i = .next b ∧ t = m.after i b := by
  have key : m.command i = mapNext (m.after i) (m.toBlock.command (Config.draw m.draws) i) := by
    have h : (fun b => { m with toBlock := b, draws := if b.err = 0 then m.draws + 1 else m.draws }) = m.after .hide := by
      funext b; simp [System.after, drawing]
    cases i with
    | wrbits => exact congrArg (mapNext · _) h
    | hide => exact congrArg (mapNext · _) h
    | _ => rfl
  rw [key, mapNext_eq_next]
  exact exists_congr fun b => and_congr_right fun _ => eq_comm

/-- A command whose tests pass has its whole effect on the machine, for any parameters. -/
theorem System.command_of_passes {i : Instr} (h : m.toBlock.passes i) :
    m.command i = .next (m.after i (m.toBlock.effect (Config.draw m.draws) i).succeed) :=
  m.command_next.2 ⟨_, m.toBlock.command_of_passes _ h, rfl⟩

/-- What a command that gives a next state can have done, for any parameters. -/
theorem System.command_cases {i : Instr} {t : System P} (h : m.command i = .next t) :
    (∃ c ∈ mayRaise i, t = { m with toBlock := m.toBlock.raise c }) ∨
      (m.toBlock.passes i ∧ t = m.after i (m.toBlock.effect (Config.draw m.draws) i).succeed) := by
  obtain ⟨b, hb, rfl⟩ := m.command_next.1 h
  rcases m.toBlock.command_next _ hb with ⟨c, hc, rfl⟩ | ⟨hp, rfl⟩
  · exact .inl ⟨c, hc, by rw [System.after, Block.raise_err, if_neg fun h => c.code_ne_zero h.2]⟩
  · exact .inr ⟨hp, rfl⟩

end

/-- The machine of the host's interface after a command that left the block at `b`. -/
def State.after (s : State) (i : Instr) (b : Block Config.params) : State := State.mk (s.toSystem.after i b)

@[simp] theorem State.after_toBlock (s : State) (i : Instr) (b : Block Config.params) : (s.after i b).toBlock = b := rfl
@[simp] theorem State.after_host (s : State) (i : Instr) (b : Block Config.params) : (s.after i b).host = s.host := rfl
@[simp] theorem State.after_reply (s : State) (i : Instr) (b : Block Config.params) : (s.after i b).reply = s.reply := rfl

@[simp] theorem State.raised_toBlock (s : State) (c : Cause) : (s.raised c).toBlock = s.toBlock.raise c := rfl

/-- After a command that raised a cause, the machine is the one `raised` gives. -/
theorem State.after_raise (s : State) (i : Instr) (c : Cause) : s.after i (s.toBlock.raise c) = s.raised c := by
  rw [State.after, System.after, Block.raise_err, if_neg fun h => c.code_ne_zero h.2]; rfl

/-- After a command that succeeded, the counter has advanced exactly where the command takes draws. -/
theorem State.after_succeed (s : State) (i : Instr) (b : Block Config.params) :
    s.after i b.succeed = { s with toBlock := b.succeed, draws := if drawing i = true then s.draws + 1 else s.draws } := by
  rw [State.after, System.after, Block.succeed_err]; cases drawing i <;> rfl

/-- `exec` is the general command at the parameters of Config. -/
theorem exec_eq_command (i : Instr) (s : State) : exec i s = mapNext State.mk (s.toSystem.command i) := by
  cases i <;> rfl

/-- `exec` gives a next state exactly where the block's command gives a next block. -/
theorem exec_next {i : Instr} {s t : State} :
    exec i s = .next t ↔ ∃ b, s.toBlock.command (Config.draw s.draws) i = .next b ∧ t = s.after i b := by
  rw [exec_eq_command, mapNext_eq_next]
  constructor
  · rintro ⟨m, hm, rfl⟩
    obtain ⟨b, hb, rfl⟩ := s.toSystem.command_next.1 hm
    exact ⟨b, hb, rfl⟩
  · rintro ⟨b, hb, rfl⟩
    exact ⟨_, s.toSystem.command_next.2 ⟨b, hb, rfl⟩, rfl⟩

/-- A command that raises a cause on the block raises it on the machine. -/
theorem exec_of_raise {i : Instr} {s : State} {c : Cause}
    (h : s.toBlock.command (Config.draw s.draws) i = .next (s.toBlock.raise c)) : exec i s = .next (s.raised c) :=
  exec_next.2 ⟨_, h, (s.after_raise i c).symm⟩

/-- A command whose tests pass has its whole effect on the machine. -/
theorem exec_of_passes {i : Instr} {s : State} (h : s.toBlock.passes i) :
    exec i s = .next (s.after i (s.toBlock.effect (Config.draw s.draws) i).succeed) :=
  exec_next.2 ⟨_, s.toBlock.command_of_passes _ h, rfl⟩

/-- What a command that gives a next state can have done. -/
theorem exec_cases {i : Instr} {s t : State} (h : exec i s = .next t) :
    (∃ c ∈ mayRaise i, t = s.raised c) ∨
      (s.toBlock.passes i ∧ t = s.after i (s.toBlock.effect (Config.draw s.draws) i).succeed) := by
  rw [exec_eq_command, mapNext_eq_next] at h
  obtain ⟨m, hm, rfl⟩ := h
  rcases s.toSystem.command_cases hm with ⟨c, hc, rfl⟩ | ⟨hp, rfl⟩
  · exact .inl ⟨c, hc, rfl⟩
  · exact .inr ⟨hp, rfl⟩

end Sys2Proof.Machine
end

