-- ==== Sys2Proof/Laws/Commands.lean ====
section
/-! SUPPORT. The equation of each command that writes a space, in the form "the machine with these fields new and every
other field as it was", and one step of a run. -/

namespace Sys2Proof.Machine

/-- WRBITS where its tests pass (R180): the cover, STATUS and the model's counter, nothing else. -/
theorem exec_wrbits_of_fill {s : State} {f : Fill} (hf : s.fill? = some f) (hl : s.bitbuf.length ≤ s.cap) :
    exec .wrbits s = .next
      { s with
        cov := (s.toBlock.writeStream (fillerOf (Config.draw s.draws) f) s.bitbuf).cov
        status := statusOf s.faultFlag 0
        draws := s.draws + 1 } := by
  have hp : s.toBlock.passes .wrbits := ⟨by rw [hf]; simp, hl⟩
  rw [exec_of_passes hp]
  simp only [Block.effect, hf, Option.bind_some]
  rw [Block.writeStream_frame, State.after_succeed]
  rfl

/-- HIDE where its tests pass (R200): the cover, `HW`, BITBUF, STATUS and the model's counter, nothing else. -/
theorem exec_hide_of_fill {s : State} {f : Fill} (hf : s.fill? = some f)
    (h1 : 8 * s.plen.toNat + headerWidth s.cap ≤ s.cap) (h2 : s.plen.toNat < 2 ^ headerWidth s.cap) :
    exec .hide s = .next
      { s with
        cov :=
          (s.toBlock.writeStream (fillerOf (Config.draw s.draws) f)
            (streamOf (headerWidth s.cap) (s.toBlock.loadBytes s.plen.toNat))).cov
        hw := BitVec.ofNat Config.params.hww (headerWidth s.cap)
        bitbuf := []
        status := statusOf s.faultFlag 0
        draws := s.draws + 1 } := by
  have hp : s.toBlock.passes .hide := ⟨by rw [hf]; simp, h1, h2⟩
  rw [exec_of_passes hp]
  simp only [Block.effect, hf, Option.bind_some]
  rw [Block.writeStream_frame, State.after_succeed]
  rfl

/-- REVEAL where its header's length fits (R205): PAY, `HW`, `DLEN`, `OLEN`, BITBUF and STATUS, nothing else. -/
theorem exec_reveal_of_fits {s : State} {len : Nat}
    (hlen : len = decodeHeader (s.toBlock.readLsbs 0 (headerWidth s.cap))) (h : headerWidth s.cap + 8 * len ≤ s.cap) :
    exec .reveal s = .next
      { s with
        pay :=
          (s.toBlock.storeBytes 0
            (bitsToBytes (s.toBlock.readLsbs (headerWidth s.cap) (8 * len)) (some (8 * len)))).pay
        hw := BitVec.ofNat Config.params.hww (headerWidth s.cap)
        dlen := BitVec.ofNat Config.params.capw len
        olen := BitVec.ofNat Config.params.capw len
        bitbuf := []
        status := statusOf s.faultFlag 0 } := by
  subst hlen
  have hp : s.toBlock.passes .reveal := h
  rw [exec_of_passes hp]
  simp only [Block.effect]
  rw [Block.storeBytes_frame, State.after_succeed]
  rfl

/-- A decoder command (R125, R126, R127): PAY, `OLEN` and STATUS, nothing else. -/
theorem run_deliver (s : State) (f : Block Config.params → Payload) :
    (s.run fun b => b.deliver (f b)) = .next
      { s with
        pay := (s.toBlock.storeBytes 0 ((f s.toBlock).take (2 ^ Config.params.capw))).pay
        olen := olenAfter Config.params (f s.toBlock)
        status := statusOf s.faultFlag 0 } := by
  simp only [State.run, System.run, Block.deliver, mapNext_next]
  rw [Block.storeBytes_frame]
  rfl

/-! ### The stream -/

section
variable {P : Params} (b : Block P)

theorem streamOf_loadBytes_length (h n : Nat) : (streamOf h (b.loadBytes n)).length = h + 8 * n := by simp [streamOf]

/-- Bit `k` of the stream HIDE writes is the stream bit the statements speak of (R91, R92). -/
theorem bitAt_streamOf {h k : Nat} (hk : k < h + 8 * b.plen.toNat) :
    bitAt (streamOf h (b.loadBytes b.plen.toNat)) k = b.streamBit h k := by
  unfold Block.streamBit streamOf
  split
  · rename_i hh
    rw [bitAt_append_left (by simpa), bitAt_encodeHeader _ hh, Block.loadBytes_length]
  · rename_i hh
    rw [bitAt_append_right (by simp; omega), encodeHeader_length]
    conv_lhs => rw [show k - h = 8 * ((k - h) / 8) + (k - h) % 8 by omega]
    rw [bitAt_bytesToBits _ (by simp; omega) (by omega), Block.loadBytes_getD _ (by omega)]

end

/-! ### Runs -/

/-- One more step of a run. -/
theorem core_run_succ (n : Nat) (s : State) :
    Sys2Proof.core.run (n + 1) s = match step s with
      | .next t => Sys2Proof.core.run n t
      | .fault e => .fault e
      | .refused r => .refused r := by
  have h : ∀ (M : Host.Core) (n : Nat) (x : M.State), M.run (n + 1) x = match M.step x with
      | .next y => M.run n y
      | .fault e => .fault e
      | .refused r => .refused r := fun _ _ _ => rfl
  cases hs : step s with
  | next t => exact (h Sys2Proof.core n s).trans (by rw [show Sys2Proof.core.step s = .next t from hs])
  | fault e => exact (h Sys2Proof.core n s).trans (by rw [show Sys2Proof.core.step s = .fault e from hs])
  | refused r => exact (h Sys2Proof.core n s).trans (by rw [show Sys2Proof.core.step s = .refused r from hs])

theorem core_run_zero (s : State) : Sys2Proof.core.run 0 s = .next s := rfl

/-- One step of a run whose step is known. -/
theorem core_run_of_step {n : Nat} {s t : State} (h : step s = .next t) :
    Sys2Proof.core.run (n + 1) s = Sys2Proof.core.run n t := by
  rw [core_run_succ, h]

/-- The step of the host's interface is the general step at the parameters of Config. -/
theorem step_eq_system_step (s : State) : step s = mapNext State.mk s.toSystem.step := by
  have h : (fun i (m : System Config.params) => mapNext State.toSystem (exec i (State.mk m))) = System.command := by
    funext i m; rw [exec_eq_command, mapNext_toSystem_mk]
  rw [step, h, System.step]

/-- A step takes the next line (R13, R105). -/
theorem step_cons {s : State} {l : Line Config.params} {rest : List (Line Config.params)} (h : s.host = l :: rest) :
    step s = mapNext State.mk (performLine System.command l { s.toSystem with host := rest }) := by
  simp only [step_eq_system_step, System.step, takeLine, h]

/-- One more step of a run, where the next line is a transaction. -/
theorem core_run_txn (n : Nat) {s : State} {u : System Config.params} {t : Txn Config.params}
    {rest : List (Line Config.params)} (h : s.host = .txn t :: rest)
    (hu : performTxn System.command t { s.toSystem with host := rest } = .next u) :
    Sys2Proof.core.run (n + 1) s = Sys2Proof.core.run n (State.mk u) :=
  core_run_of_step ((step_cons h).trans (congrArg (mapNext State.mk) hu))

/-- One more step of a run, where the next line is a directive: its transactions come next (R106). -/
theorem core_run_directive (n : Nat) {s : State} {d : Directive Config.params} {rest : List (Line Config.params)}
    (h : s.host = .directive d :: rest) (hd : d.wellFormed s.cap = true) :
    Sys2Proof.core.run (n + 1) s =
      Sys2Proof.core.run n { s with host := (s.toBlock.expand d).map Line.txn ++ rest } :=
  core_run_of_step ((step_cons h).trans (congrArg (mapNext State.mk) (if_pos hd)))

/-- Issuing a command's own word runs the command. -/
theorem issueCommand_encodeWord {P : Params} (run : Runner P) (i : Instr) (m : System P) :
    issueCommand run (encodeWord i) m = run i m := by
  cases i <;> rfl

/-- A step that issues a command's own word is that command. -/
theorem step_command {s : State} {i : Instr} {rest : List (Line Config.params)}
    (h : s.host = .txn (.cmd (encodeWord i)) :: rest) : step s = exec i { s with host := rest } := by
  rw [step_cons h, exec_eq_command, performLine, performTxn, issueCommand_encodeWord]

/-- A sequence of commands whose first one is known. -/
theorem runCommands_cons {i : Instr} {is : List Instr} {s t : State} (h : exec i s = .next t) :
    runCommands (i :: is) s = runCommands is t := by
  rw [runCommands, h]

end Sys2Proof.Machine
end

