-- ==== Sys2Proof/Laws/PerInstr.lean ====
section
/-! SUPPORT. What holds of every command as syntax, one lemma per constructor. -/

namespace Sys2Proof.Laws.Encoding

/-- Encoding one command: it is well formed, its encoding is one byte, decoding that byte in front of any others gives
the command back, and its word, numbered as the opcode table numbers it, reads as the command (R100, R101, R104). -/
def Statement (i : Instr) : Prop :=
  i.wellFormed = true ∧ (encode i).length = 1 ∧ (∀ rest, decode (encode i ++ rest) = .command i rest) ∧
    decodeTableWord 8 (encodeWord i).toNat = some i

theorem nop : Statement .nop := ⟨rfl, rfl, fun _ => rfl, rfl⟩
theorem eclr : Statement .eclr := ⟨rfl, rfl, fun _ => rfl, rfl⟩
theorem bclr : Statement .bclr := ⟨rfl, rfl, fun _ => rfl, rfl⟩
theorem bpush : Statement .bpush := ⟨rfl, rfl, fun _ => rfl, rfl⟩
theorem bget : Statement .bget := ⟨rfl, rfl, fun _ => rfl, rfl⟩
theorem bytes2bits : Statement .bytes2bits := ⟨rfl, rfl, fun _ => rfl, rfl⟩
theorem bits2bytes : Statement .bits2bytes := ⟨rfl, rfl, fun _ => rfl, rfl⟩
theorem bits2bytesl : Statement .bits2bytesl := ⟨rfl, rfl, fun _ => rfl, rfl⟩
theorem bits2bytesd : Statement .bits2bytesd := ⟨rfl, rfl, fun _ => rfl, rfl⟩
theorem hwidth : Statement .hwidth := ⟨rfl, rfl, fun _ => rfl, rfl⟩
theorem validate : Statement .validate := ⟨rfl, rfl, fun _ => rfl, rfl⟩
theorem enchdr : Statement .enchdr := ⟨rfl, rfl, fun _ => rfl, rfl⟩
theorem dechdr : Statement .dechdr := ⟨rfl, rfl, fun _ => rfl, rfl⟩
theorem map : Statement .map := ⟨rfl, rfl, fun _ => rfl, rfl⟩
theorem rdlsb : Statement .rdlsb := ⟨rfl, rfl, fun _ => rfl, rfl⟩
theorem wrlsb : Statement .wrlsb := ⟨rfl, rfl, fun _ => rfl, rfl⟩
theorem readall : Statement .readall := ⟨rfl, rfl, fun _ => rfl, rfl⟩
theorem wrbits : Statement .wrbits := ⟨rfl, rfl, fun _ => rfl, rfl⟩
theorem hide : Statement .hide := ⟨rfl, rfl, fun _ => rfl, rfl⟩
theorem reveal : Statement .reveal := ⟨rfl, rfl, fun _ => rfl, rfl⟩

end Sys2Proof.Laws.Encoding
end

