-- ==== Sys2Proof/Tests/Slice0.lean ====
section
/-! SUPPORT. Small tests, each with its expected result taken from spec/95_test_vectors.md or from the encoding and the
register tables of spec/, and for every obligation that has hypotheses a theorem that meets them. -/

namespace Sys2Proof.Tests

open Sys2Proof.Machine

/-- One thing read off an outcome, where it is a next state. -/
def seen {σ α : Type} (o : Host.Outcome σ Fault Refusal) (f : σ → α) : Option α :=
  match o with
  | .next t => some (f t)
  | .fault _ => none
  | .refused _ => none

/-- STATUS as a number. -/
def statusNat (s : State) : Nat := s.status.toNat

/-- The samples of the listed slots of COV, in slot order. -/
def samples (s : State) : List Nat := s.cov.map fun c => c.2.toNat

/-- A bit sequence written as a list of numbers. -/
def bits (l : List Nat) : BitSeq := l.map fun n => BitVec.ofNat 1 n

/-- A cover that lists the given samples from slot 0. -/
def coverOf (l : List Nat) : Memory 8 := l.zipIdx.map fun p => (p.2, BitVec.ofNat 8 p.1)

/-- A payload space that lists the given bytes from address 0. -/
def payOf (l : List Nat) : Memory 8 := coverOf l

/-- A machine whose cover has the given dimensions and samples. -/
def withCover (w h c : Nat) (vs : List Nat) : State :=
  { State.reset with
    width := BitVec.ofNat 16 w
    height := BitVec.ofNat 16 h
    channels := BitVec.ofNat 3 c
    cov := coverOf vs }

/-! ### Well-formedness -/

theorem test_cover_with_a_sample_for_each_slot_is_well_formed :
    (Directive.cover (P := Config.params) [1, 2, 3]).wellFormed 3 = true := by decide

theorem test_cover_with_too_few_samples_is_refused :
    (Directive.cover (P := Config.params) [1, 2, 3]).wellFormed 4 = false := by decide

theorem test_cover_line_of_the_wrong_length_stops_by_name :
    (match step { withCover 2 1 1 [] with host := [.directive (.cover [7])] } with
      | .refused .illFormedDirective => true
      | _ => false) = true := by decide

theorem payload_wellFormed (cap : Nat) (bs : Payload) :
    (Directive.payload (P := Config.params) bs).wellFormed cap = decide (bs.length < 2 ^ Config.params.capw) := rfl

theorem test_payload_whose_length_fits_no_plen_is_refused :
    (Directive.payload (P := Config.params) (List.replicate (2 ^ 35) 0)).wellFormed 0 = false := by
  rw [payload_wellFormed, List.length_replicate]; decide

theorem test_longest_payload_is_well_formed :
    (Directive.payload (P := Config.params) (List.replicate (2 ^ 35 - 1) 0)).wellFormed 0 = true := by
  rw [payload_wellFormed, List.length_replicate]; decide

/-! ### Decoding: every word written out from the column "word" of R101, GRP bits [7:4] and FN bits [3:0] -/

theorem test_decode_group_0 :
    decode [0b00000000, 0xAA] = .command .nop [0xAA] ∧ decode [0b00000001, 0xAA] = .command .eclr [0xAA] ∧
      decode [0b00000010] = .command .bclr [] ∧ decode [0b00000011] = .command .bpush [] ∧
      decode [0b00000100] = .command .bget [] := by decide

theorem test_decode_group_1 :
    decode [0b00010000] = .command .bytes2bits [] ∧ decode [0b00010001] = .command .bits2bytes [] ∧
      decode [0b00010010] = .command .bits2bytesl [] ∧ decode [0b00010011] = .command .bits2bytesd [] := by decide

theorem test_decode_group_2 :
    decode [0b00100000] = .command .hwidth [] ∧ decode [0b00100001] = .command .validate [] ∧
      decode [0b00100010] = .command .enchdr [] ∧ decode [0b00100011] = .command .dechdr [] := by decide

theorem test_decode_group_3 :
    decode [0b00110000] = .command .map [] ∧ decode [0b00110001] = .command .rdlsb [] ∧
      decode [0b00110010] = .command .wrlsb [] ∧ decode [0b00110011] = .command .readall [] ∧
      decode [0b00110100] = .command .wrbits [] := by decide

theorem test_decode_group_4 :
    decode [0b01000000] = .command .hide [] ∧ decode [0b01000001] = .command .reveal [] := by decide

/-- R102: the words next to the defined ones, and the last one. -/
theorem test_decode_reserved :
    decode [0x05, 7] = .illegalCommand 0x05 [7] ∧ decode [0x0F] = .illegalCommand 0x0F [] ∧
      decode [0x14] = .illegalCommand 0x14 [] ∧ decode [0x24] = .illegalCommand 0x24 [] ∧
      decode [0x35] = .illegalCommand 0x35 [] ∧ decode [0x42] = .illegalCommand 0x42 [] ∧
      decode [0xFF] = .illegalCommand 0xFF [] ∧ decode [] = .noWord := by decide

theorem test_decode_table_word :
    decodeTableWord 8 0x34 = some .wrbits ∧ decodeTableWord 8 0x99 = none ∧ decodeTableWord 8 0x140 = none := by decide

/-! ### One step -/

theorem test_step_runs_the_fetched_word :
    seen (step (State.reset.withFetchWord 8 0x20)) (fun t => (t.hw.toNat, statusNat t, t.host.length)) = some (0, 0, 0) := by
  decide

/-- 95 section 2.10: a reserved word from `STATUS` 0x00 gives 0x15. -/
theorem test_step_reserved_word : seen (step (State.reset.withFetchWord 8 0x05)) statusNat = some 0x15 := by decide

/-! ### The pure functions, from the tables of 95 sections 2.1 to 2.5 and 2.8 -/

theorem test_header_width_table :
    [0, 7, 8, 15, 16, 23, 24, 39, 40, 64, 71, 72, 136, 2055, 2056, 2400, 4294967296, 30063853575].map headerWidth =
      [0, 0, 0, 0, 1, 1, 2, 2, 3, 3, 3, 4, 5, 8, 9, 9, 29, 32] := by decide

theorem test_capacity_check_table :
    capacityCheck 0 0 0 = none ∧ capacityCheck 1 7 0 = some .payloadTooLargeForCover ∧
      capacityCheck 1 8 0 = some .payloadTooLargeForHeader ∧ capacityCheck 2 16 1 = some .payloadTooLargeForCover ∧
      capacityCheck 2 17 1 = some .payloadTooLargeForHeader ∧ capacityCheck 3 26 2 = none ∧
      capacityCheck 298 2400 9 = none ∧ capacityCheck 299 2400 9 = some .payloadTooLargeForCover := by decide

theorem test_header_bits_table :
    encodeHeader 0 0 = [] ∧ encodeHeader 2 3 = bits [0, 1, 0] ∧ encodeHeader 19 9 = bits [0, 0, 0, 0, 1, 0, 0, 1, 1] ∧
      decodeHeader (bits [1, 0, 0, 1, 0, 1, 0, 1, 0]) = 298 := by decide

theorem test_codec_table :
    bytesToBits [0xA5] = bits [1, 0, 1, 0, 0, 1, 0, 1] ∧ bitsToBytes (bits [1, 0, 1, 0, 0, 1, 0, 1, 1]) none = [0xA5] ∧
      bitsToBytes (bits [1, 1, 1, 1, 1, 1, 1]) none = [] := by decide

theorem test_put_bit_table :
    [0, 1, 2, 127, 128, 254, 255].map (fun v => (putBit (P := Config.params) 0 (BitVec.ofNat 8 v) 0).toNat) =
        [0, 0, 2, 126, 128, 254, 254] ∧
      [0, 1, 2, 127, 128, 254, 255].map (fun v => (putBit (P := Config.params) 0 (BitVec.ofNat 8 v) 1).toNat) =
        [1, 1, 3, 127, 129, 255, 255] ∧
      (putBit (P := Config.params) 1 254 0).toNat = 0 ∧ (putBit (P := Config.params) 1 2 1).toNat = 255 := by decide

/-- R8's parameters with another sample width. -/
def samplesOf (sw : Nat) (h : 1 ≤ sw) : Params := { Config.params with sw := sw, sw_pos := h }

theorem test_put_bit_other_widths :
    (putBit (P := samplesOf 16 (by decide)) 0 65535 0).toNat = 65534 ∧
      (putBit (P := samplesOf 16 (by decide)) 0 4660 1).toNat = 4661 ∧
      (putBit (P := samplesOf 16 (by decide)) 1 5 1).toNat = 65535 ∧
      (putBit (P := samplesOf 1 (by decide)) 0 0 1).toNat = 1 ∧ (putBit (P := samplesOf 1 (by decide)) 1 0 1).toNat = 1 := by
  decide

/-! ### The layout of STATUS and MODE (10 R25 to R27, R36) -/

theorem test_status_layout : statusOf 1 5 = 0b10101 ∧ statusErr 0b10111 = 7 ∧ statusFault 0b10111 = 1 := by decide

theorem test_mode_layout :
    [0, 1, 2, 3, 4, 5].map (fun m => (fillOf (modeFill m), (modeBilevel m).toNat)) =
      [(some .none, 0), (some .zeroes, 0), (some .random, 0), (none, 0), (some .none, 1), (some .zeroes, 1)] := by decide

/-! ### Other parameters (00 R8) -/

/-- The narrowest registers R8 allows, with 16-bit samples: CAPW = 3, BLW = 7, PAY of eight bytes. -/
def narrow : Params where
  dimw := 1
  chw := 1
  sw := 16
  hww := 2
  dimw_pos := by decide
  chw_pos := by decide
  sw_pos := by decide
  hww_fits := by decide

/-- R125, log 5: nine decoded bytes and eight addresses; the command succeeds. -/
theorem test_bits2bytes_past_the_last_address :
    seen (System.command .bits2bytes { System.reset narrow with bitbuf := List.replicate 72 1, status := 0x17 })
      (fun m => (m.pay.map fun c => (c.1, c.2.toNat), m.status.toNat)) =
      some ((List.range 8).map fun a => (a, 255), 0x10) := by decide

/-- R26: `MAXVAL` is 2^SW - 1. -/
theorem test_wrlsb_bilevel_16_bits :
    seen (System.step
      { System.reset narrow with
        width := 1, height := 1, channels := 1, mode := 4, bit := 1, host := [.txn (.cmd 0x32)], cov := [(0, 2)] })
      (fun m => m.cov.map fun c => c.2.toNat) = some [65535] := by decide

/-! ### Control (95 section 2.10) -/

theorem test_nop_keeps_fault : seen (exec .nop { State.reset with status := 0x15 }) statusNat = some 0x10 := by decide

theorem test_eclr_clears_fault : seen (exec .eclr { State.reset with status := 0x18 }) statusNat = some 0 := by decide

/-! ### Stream port (95 section 2.6) -/

theorem test_bclr : seen (exec .bclr { State.reset with status := 0x17, bitbuf := bits [1, 0, 0] })
    (fun t => (t.bitbuf, statusNat t)) = some ([], 0x10) := by decide

theorem test_bpush_appends : seen (exec .bpush { State.reset with bitbuf := bits [1], bit := 0 })
    (fun t => (t.bitbuf, regNat (t.readReg .blen))) = some (bits [1, 0], 2) := by decide

theorem test_bget_first : seen (exec .bget { State.reset with bitbuf := bits [1, 0, 0], idx := 0 })
    (fun t => t.bit.toNat) = some 1 := by decide

theorem test_bget_past_the_end : seen (exec .bget { State.reset with bitbuf := bits [1, 0, 0], idx := 3, bit := 0 })
    (fun t => (statusNat t, t.bit.toNat)) = some (0x17, 0) := by decide

/-! ### Codec (95 sections 2.4 and 2.5) -/

/-- The 21 bits of 95 section 2.5. -/
def bits21 : BitSeq := bits [0, 1, 0, 0, 1, 0, 0, 0, 0, 1, 1, 0, 1, 0, 0, 1, 1, 1, 1, 1, 1]

theorem test_bytes2bits : seen (exec .bytes2bits { State.reset with pay := payOf [0x48, 0x69], plen := 2 })
    (fun t => t.bitbuf) = some (bits [0, 1, 0, 0, 1, 0, 0, 0, 0, 1, 1, 0, 1, 0, 0, 1]) := by decide

theorem test_bits2bytes : seen (exec .bits2bytes { State.reset with bitbuf := bits21, pay := payOf [1, 2, 3] })
    (fun t => (t.pay, t.olen.toNat, t.bitbuf)) = some (payOf [0x48, 0x69, 3], 2, bits21) := by decide

theorem test_bits2bytesl_counts_bits : seen (exec .bits2bytesl { State.reset with bitbuf := bits21, limit := 15 })
    (fun t => (t.pay, t.olen.toNat)) = some (payOf [0x48], 1) := by decide

theorem test_bits2bytesl_zero : seen (exec .bits2bytesl { State.reset with bitbuf := bits21, limit := 0, olen := 9 })
    (fun t => (t.pay, t.olen.toNat)) = some ([], 0) := by decide

theorem test_bits2bytesd_more_than_there_is : seen (exec .bits2bytesd { State.reset with bitbuf := bits21, dlen := 3 })
    (fun t => (t.pay, t.olen.toNat, statusNat t)) = some (payOf [0x48, 0x69], 2, 0) := by decide

theorem test_bits2bytesd_one : seen (exec .bits2bytesd { State.reset with bitbuf := bits21, dlen := 1 })
    (fun t => (t.pay, t.olen.toNat)) = some (payOf [0x48], 1) := by decide

/-! ### Header (95 sections 2.1 to 2.3) -/

theorem test_hwidth : seen (exec .hwidth { withCover 40 20 3 [] with hw := 63 }) (fun t => t.hw.toNat) = some 9 := by decide

theorem test_validate_reserved_hw : seen (exec .validate { State.reset with hw := 36 }) statusNat = some 0x16 := by decide

theorem test_validate_stale_hw : seen (exec .validate { State.reset with hw := 5 }) statusNat = some 0x11 := by decide

theorem test_enchdr_goes_in_front : seen (exec .enchdr { State.reset with hw := 3, plen := 2, bitbuf := bits [1, 1] })
    (fun t => t.bitbuf) = some (bits [0, 1, 0, 1, 1]) := by decide

theorem test_enchdr_too_large : seen (exec .enchdr { State.reset with hw := 2, plen := 4, bitbuf := bits [1] })
    (fun t => (statusNat t, t.bitbuf)) = some (0x12, bits [1]) := by decide

theorem test_dechdr : seen (exec .dechdr { State.reset with hw := 2, bitbuf := bits [1, 1, 0, 1, 0, 1] })
    (fun t => (t.dlen.toNat, t.bitbuf)) = some (3, bits [0, 1, 0, 1]) := by decide

theorem test_dechdr_truncated : seen (exec .dechdr { State.reset with hw := 2, dlen := 7, bitbuf := bits [1] })
    (fun t => (statusNat t, t.dlen.toNat, t.bitbuf)) = some (0x14, 7, bits [1]) := by decide

/-! ### Mapper (95 sections 2.7 to 2.9) -/

theorem test_map : seen (exec .map { withCover 5 3 4 [] with idx := 37 })
    (fun t => (t.px.toNat, t.py.toNat, t.pch.toNat)) = some (4, 1, 1) := by decide

theorem test_map_past_the_cover : seen (exec .map { withCover 4 2 3 [] with idx := 24, px := 9 })
    (fun t => (statusNat t, t.px.toNat)) = some (0x17, 9) := by decide

theorem test_rdlsb : seen (exec .rdlsb { withCover 4 1 1 [0, 2, 127, 4] with idx := 2 })
    (fun t => t.bit.toNat) = some 1 := by decide

theorem test_wrlsb : seen (exec .wrlsb { withCover 4 1 1 [10, 11, 12, 13] with idx := 2, bit := 1 }) samples =
    some [10, 11, 13, 13] := by decide

theorem test_wrlsb_bilevel : seen (exec .wrlsb { withCover 4 1 1 [10, 11, 12, 13] with idx := 1, bit := 1, mode := 4 }) samples =
    some [10, 255, 12, 13] := by decide

theorem test_readall : seen (exec .readall { withCover 2 2 1 [255, 0, 0, 0] with bitbuf := bits [1] })
    (fun t => t.bitbuf) = some (bits [1, 0, 0, 0]) := by decide

theorem test_readall_empty_cover : seen (exec .readall { withCover 0 7 3 [] with bitbuf := bits [1] })
    (fun t => (t.bitbuf, statusNat t)) = some ([], 0) := by decide

theorem test_wrbits_zeroes :
    seen (exec .wrbits { withCover 4 1 1 [255, 255, 255, 255] with bitbuf := bits [0, 1], mode := 1 }) samples =
      some [254, 255, 254, 254] := by decide

theorem test_wrbits_bilevel :
    seen (exec .wrbits { withCover 2 2 1 [0, 255, 255, 0] with bitbuf := bits [1, 0], mode := 5 }) samples =
      some [255, 0, 0, 0] := by decide

/-! ### HIDE and REVEAL (95 programs P1, P3, P4 and example S4) -/

/-- The start of program P1: 4 by 4 pixels of 3 channels, two payload bytes. -/
def p1 : State :=
  { withCover 4 4 3 ((List.range 48).map fun k => (17 * k + 3) % 256) with pay := payOf [0x48, 0x69], plen := 2 }

set_option maxRecDepth 20000 in
theorem test_hide_p1 : seen (exec .hide p1) (fun t => ((samples t).take 21, t.hw.toNat, t.bitbuf, statusNat t)) =
    some ([2, 21, 36, 54, 71, 88, 104, 123, 138, 156, 172, 190, 207, 225, 240, 3, 18, 36, 53, 70, 87], 3, [], 0) := by
  decide

/-- P4: a bilevel surface with the zero filler. -/
theorem test_hide_bilevel_p4 :
    seen (exec .hide
      { withCover 8 4 1 ((List.range 32).map fun k => 255 * ((k + 1) % 2)) with pay := payOf [0x41], plen := 1, mode := 5 })
      samples = some ([0, 255, 0, 255, 0, 0, 0, 0, 0, 255] ++ List.replicate 22 0) := by decide

/-- P4's cover after HIDE, revealed over another payload. -/
theorem test_reveal_p4 :
    seen (exec .reveal
      { withCover 8 4 1 ([0, 255, 0, 255, 0, 0, 0, 0, 0, 255] ++ List.replicate 22 0) with pay := payOf [9, 9], plen := 2 })
      (fun t => (t.pay, t.olen.toNat, t.dlen.toNat, t.plen.toNat, t.hw.toNat)) = some (payOf [0x41, 9], 1, 1, 2, 2) := by
  decide

/-- 95 section 2.10: all samples odd, the header asks for more than the cover holds. -/
theorem test_reveal_truncated :
    seen (exec .reveal { withCover 4 2 3 (List.replicate 24 255) with status := 0x12, hw := 7 })
      (fun t => (statusNat t, t.hw.toNat, t.pay)) = some (0x14, 7, []) := by decide

/-! ### Reset and the memory's form -/

theorem test_reset_memory_is_canonical : Memory.wf State.reset.pay ∧ Memory.wf State.reset.cov := by decide

theorem test_reset_keeps_the_spaces :
    seen (step { p1 with host := [.txn .reset], status := 0x15 }) (fun t => (statusNat t, t.plen.toNat, t.pay == p1.pay)) =
      some (0, 0, true) := by decide

/-! ### Witnesses: for each obligation with hypotheses, a state and operands that meet all of them together -/

/-- A small cover that holds one payload byte: 4 by 2 pixels of 3 channels, header width 2. -/
def small : State := { withCover 4 2 3 (List.replicate 24 255) with pay := payOf [0x41], plen := 1 }

/-- A host program of one transaction. -/
def issues (t : Txn Config.params) : State := { small with host := [.txn t] }

theorem witness_DecodeAndEncodeAgree : Instr.wellFormed .hide = true ∧ decodeWord 0x40 = some .hide := by decide

theorem witness_ReservedWordsRaiseIllegalCommand :
    (issues (.cmd 0x05)).host = .txn (.cmd 0x05) :: [] ∧ decodeWord 0x05 = none ∧
      (issues (.cmd 0xFF)).host = .txn (.cmd 0xFF) :: [] ∧ decodeWord 0xFF = none := by decide

theorem witness_StepRunsTheIssuedCommand :
    (issues (.cmd 0x41)).host = .txn (.cmd 0x41) :: [] ∧ decode [0x41] = .command .reveal [] := by decide

theorem witness_IdleBlockKeepsItsState : State.reset.host = [] := by decide

theorem witness_ResetZeroesRegistersKeepsSpaces : (issues .reset).host = .txn .reset :: [] := by decide

theorem witness_HostRegisterAccess :
    (issues (.rd .cap)).host = .txn (.rd .cap) :: [] ∧ (issues (.wr (.mode 7))).host = .txn (.wr (.mode 7)) :: [] ∧
      hostMayWrite (regOf (.mode 7 : RegValue Config.params)) = true ∧
      (issues (.wr (.cap 5))).host = .txn (.wr (.cap 5)) :: [] ∧
      hostMayWrite (regOf (.cap 5 : RegValue Config.params)) = false ∧
      Reg.cap ≠ regOf (.mode 7 : RegValue Config.params) ∧
      regOf (.mode 7 : RegValue Config.params) ∉ [Reg.width, Reg.height, Reg.channels] := by decide

theorem witness_CapAndBlenAreViews : small.bitbuf.length < 2 ^ Config.params.blw ∧
    (List.replicate (2 ^ Config.params.blw - 1) (0 : Bit)).length < 2 ^ Config.params.blw := by
  rw [List.length_replicate]; decide

theorem witness_OutsideAccessToTheSpaces :
    (issues (.payWrite 0x7FFFFFFFF 1)).host = .txn (.payWrite 0x7FFFFFFFF 1) :: [] ∧
      (issues (.payRead 0)).host = .txn (.payRead 0) :: [] ∧
      (issues (.covWrite 23 1)).host = .txn (.covWrite 23 1) :: [] ∧
      (23 : BitVec Config.params.capw).toNat < (issues (.covWrite 23 1)).cap ∧
      (issues (.covRead 23)).host = .txn (.covRead 23) :: [] ∧
      (issues (.covWrite 24 1)).host = .txn (.covWrite 24 1) :: [] ∧
      (issues (.covRead 24)).host = .txn (.covRead 24) :: [] ∧
      (issues (.covRead 24)).cap ≤ (24 : BitVec Config.params.capw).toNat := by decide

theorem witness_PayloadDirectiveLoadsThePayload :
    { small with host := [.directive (.payload [1, 2])] }.host = .directive (.payload [1, 2]) :: [] ∧
      ([1, 2] : Payload).length < 2 ^ Config.params.capw ∧ ([] : Payload).length < 2 ^ Config.params.capw := by decide

theorem witness_PushBitsDirectiveAppends :
    { small with host := [.directive (.pushBits (bits [1, 0]))] }.host = .directive (.pushBits (bits [1, 0])) :: [] ∧
      small.bitbuf.length + (bits [1, 0]).length < 2 ^ Config.params.blw := by decide

theorem witness_ConfigurationDirectives :
    { small with host := [.directive (.cfg 4 2 3)] }.host = .directive (.cfg 4 2 3) :: [] ∧
      { small with host := [.directive (.fill .random)] }.host = .directive (.fill .random) :: [] ∧
      { small with host := [.directive (.bilevel 1)] }.host = .directive (.bilevel 1) :: [] := by decide

/-- A COVER of exactly `CAP` samples, one of another length, and COVERALL, on covers of 2 slots and of none. -/
theorem witness_CoverDirectivesLoadTheCover :
    { withCover 2 1 1 [] with host := [.directive (.cover [7, 8])] }.host = .directive (.cover [7, 8]) :: [] ∧
      ([7, 8] : List (BitVec Config.params.sw)).length = (withCover 2 1 1 []).cap ∧
      ([] : List (BitVec Config.params.sw)).length = (withCover 0 1 1 []).cap ∧
      ([7] : List (BitVec Config.params.sw)).length ≠ (withCover 2 1 1 []).cap ∧
      { withCover 2 1 1 [] with host := [.directive (.coverAll 9)] }.host = .directive (.coverAll 9) :: [] := by decide

/-- MAP at `IDX` = `CAP` gives a next state with a fault code. -/
theorem witness_FaultingCommandChangesOnlyStatus :
    ∃ t, exec .map { small with idx := 24 } = .next t ∧ t.err ≠ 0 := ⟨_, rfl, by decide⟩

theorem witness_CommandsRaiseOnlyTheirCauses :
    ∃ t, exec .reveal small = .next t ∧ t.err ≠ 0 := ⟨_, rfl, by decide⟩

theorem witness_FaultFlagIsSticky :
    (∃ t, exec .nop { small with status := 0x15 } = .next t) ∧ ∃ t, exec .eclr { small with status := 0x15 } = .next t :=
  ⟨⟨_, rfl⟩, ⟨_, rfl⟩⟩

theorem witness_RunEndingWithoutFaultHadNone :
    ∃ m t, Instr.eclr ∉ [Instr.hwidth] ∧ Instr.eclr ∉ [Instr.nop] ∧ [Instr.hwidth] ≠ [] ∧
      runCommands [.hwidth] small = .next m ∧ runCommands [.nop] m = .next t ∧ t.faultFlag = 0 :=
  ⟨_, _, by decide, by decide, by decide, rfl, rfl, by decide⟩

/-- A machine whose BITBUF holds `n` zeros. -/
def zeros (n : Nat) : State := { State.reset with bitbuf := List.replicate n 0 }

theorem zeros_length (n : Nat) : (zeros n).bitbuf.length = n := List.length_replicate ..

theorem witness_StreamPortCommands :
    (zeros (2 ^ Config.params.blw - 1)).bitbuf.length = 2 ^ Config.params.blw - 1 ∧
      (zeros 0).bitbuf.length ≠ 2 ^ Config.params.blw - 1 ∧
      (zeros 3).bitbuf.length ≤ { zeros 3 with idx := 3 }.idx.toNat ∧
      { zeros 3 with idx := 2 }.idx.toNat < (zeros 3).bitbuf.length := by
  rw [zeros_length]; decide

theorem witness_Bytes2BitsMakesTheBits : 0 < small.plen.toNat ∧ 7 ≤ 7 := by decide

theorem witness_DecoderCommandsDeliverBytes :
    (zeros (8 * 2 ^ Config.params.capw - 1)).bitbuf.length / 8 < 2 ^ Config.params.capw ∧
      min (zeros 17).bitbuf.length { zeros 17 with limit := 16 }.limit.toNat / 8 < 2 ^ Config.params.capw := by
  rw [zeros_length]; decide

/-- Exactly 2^CAPW bytes and one more, for both commands. -/
theorem witness_DecoderCountPastTheRegister :
    2 ^ Config.params.capw ≤ (zeros (8 * 2 ^ Config.params.capw)).bitbuf.length / 8 ∧
      2 ^ Config.params.capw ≤ (zeros (8 * 2 ^ Config.params.capw + 8)).bitbuf.length / 8 ∧
      2 ^ Config.params.capw ≤
        min (zeros (8 * 2 ^ Config.params.capw + 8)).bitbuf.length
          { zeros (8 * 2 ^ Config.params.capw + 8) with limit := 0x7FFFFFFFFF }.limit.toNat / 8 := by
  rw [zeros_length, zeros_length]; decide

theorem witness_CodecFunctionsAreInverse : 8 * ([0x41] : Payload).length ≤ 8 := by decide

theorem witness_HeaderWidthProperties : 15 ≤ 16 ∧ 1 ≤ 1 ∧ headerWidth 16 = 1 ∧ headerWidth 23 = 1 := by decide

theorem witness_HwidthComputesTheHeaderWidth :
    (withCover 15 1 1 []).cap / 8 ≤ 1 ∧ 1 < (withCover 16 1 1 []).cap / 8 ∧ (withCover 16 1 1 []).cap / 8 ≤ 2 ^ 1 := by decide

theorem witness_HeaderTestFailsAloneForThirtySixPairs :
    capacityCheck 1 8 (headerWidth 8) = some .payloadTooLargeForHeader ∧
      capacityCheck 1 15 (headerWidth 15) = some .payloadTooLargeForHeader ∧
      capacityCheck 128 1031 (headerWidth 1031) = some .payloadTooLargeForHeader ∧
      capacityCheck 1 16 (headerWidth 16) = none := by decide

theorem witness_HeaderFunctionsAreInverse : 8 < 9 ∧ 511 < 2 ^ 9 := by decide

theorem witness_EnchdrPrependsTheHeader :
    Config.params.capw < { small with hw := 36 }.hw.toNat ∧ { small with hw := 35 }.hw.toNat ≤ Config.params.capw ∧
      { small with hw := 0 }.hw.toNat ≤ Config.params.capw ∧ 2 ^ { small with hw := 0 }.hw.toNat ≤ small.plen.toNat ∧
      small.plen.toNat < 2 ^ { small with hw := 1 }.hw.toNat ∧
      2 ^ Config.params.blw - 1 < (zeros (2 ^ Config.params.blw - 1)).bitbuf.length + { small with hw := 1 }.hw.toNat ∧
      (zeros (2 ^ Config.params.blw - 2)).bitbuf.length + { small with hw := 1 }.hw.toNat ≤ 2 ^ Config.params.blw - 1 := by
  rw [zeros_length, zeros_length]; decide

theorem witness_DechdrTakesTheHeader :
    Config.params.capw < { small with hw := 36 }.hw.toNat ∧ { small with hw := 35 }.hw.toNat ≤ Config.params.capw ∧
      (zeros 34).bitbuf.length < { small with hw := 35 }.hw.toNat ∧
      { small with hw := 35 }.hw.toNat ≤ (zeros 35).bitbuf.length := by
  rw [zeros_length, zeros_length]; decide

theorem witness_SlotsAndPixelsAreInBijection :
    23 < 4 * 2 * 3 ∧ 3 < 4 ∧ 1 < 2 ∧ 2 < 3 ∧ slotToPixel 4 3 23 = ⟨3, 1, 2⟩ := by decide

/-- `IDX` at the last slot and at `CAP`: the two clauses of MAP, RDLSB and WRLSB. -/
theorem witness_MapRdlsbWrlsb :
    { small with idx := 23 }.idx.toNat < small.cap ∧ small.cap ≤ { small with idx := 24 }.idx.toNat := by decide

theorem witness_PutBitAndLsb : (0 : Bit) = 0 ∧ 1 ≤ 1 ∧ (1 : Bit) = 1 := by decide

theorem witness_ReadallReadsEverySlot : 23 < small.cap := by decide

theorem witness_WrbitsWritesTheStreamAndTheTail :
    { small with mode := 3 }.mode.toNat % 4 = 3 ∧ { small with mode := 6 }.mode.toNat % 4 = 2 ∧
      { small with mode := 5 }.mode.toNat % 4 = 1 ∧ small.mode.toNat % 4 = 0 ∧
      small.cap < (zeros 25).bitbuf.length ∧ (zeros 24).bitbuf.length ≤ small.cap := by
  rw [zeros_length, zeros_length]; decide

theorem witness_ReadallReadsBackWrbits :
    ({ small with mode := 1 }.mode.toNat % 4 = 1 ∧
        ∃ t, exec .wrbits { small with bitbuf := bits [0, 1], mode := 1 } = .next t ∧ t.ok) ∧
      small.mode.toNat % 4 = 0 ∧ ∃ t, exec .wrbits { small with bitbuf := bits [0, 1] } = .next t ∧ t.ok :=
  ⟨⟨by decide, _, rfl, by decide⟩, by decide, _, rfl, by decide⟩

theorem witness_PixelPortWritesTheSameSample : 23 < small.toBlock.cap := by decide

/-- The three refusals of HIDE at the smallest covers that show them (95 section 2.2), and a payload that fits. -/
theorem witness_HideChecksThenWritesTheStream :
    { small with mode := 3 }.mode.toNat % 4 = 3 ∧ small.mode.toNat % 4 ≠ 3 ∧
      (withCover 7 1 1 []).cap < 8 * small.plen.toNat + headerWidth (withCover 7 1 1 []).cap ∧
      8 * small.plen.toNat + headerWidth (withCover 8 1 1 []).cap ≤ (withCover 8 1 1 []).cap ∧
      2 ^ headerWidth (withCover 8 1 1 []).cap ≤ small.plen.toNat ∧
      8 * small.plen.toNat + headerWidth small.cap ≤ small.cap ∧ small.plen.toNat < 2 ^ headerWidth small.cap := by decide

theorem witness_HideOverwriteRevealRun :
    { small with host := [.txn (.cmd 0x40), .txn (.payWrite 0 0xFF), .txn (.cmd 0x41)] }.host =
        .txn (.cmd 0x40) :: ([((0 : BitVec Config.params.capw), (0xFF : Byte))].map fun p => .txn (.payWrite p.1 p.2)) ++
          [.txn (.cmd 0x41)] ∧
      small.mode.toNat % 4 ≠ 3 ∧ 8 * small.plen.toNat + headerWidth small.cap ≤ small.cap ∧
      small.plen.toNat < 2 ^ headerWidth small.cap := by decide

/-- REVEAL at the exact fit (26 slots for 2 + 24) and one slot short of it. -/
theorem witness_RevealDeliversThePayload :
    (let s := withCover 26 1 1 (List.replicate 26 255);
      headerWidth s.cap + 8 * 3 ≤ s.cap ∧
        3 = ((List.range (headerWidth s.cap)).map fun j =>
          (lsb (s.readCov j)).toNat * 2 ^ (headerWidth s.cap - 1 - j)).sum) ∧
    (let s := withCover 25 1 1 (List.replicate 25 255);
      s.cap < headerWidth s.cap + 8 * 3 ∧
        3 = ((List.range (headerWidth s.cap)).map fun j =>
          (lsb (s.readCov j)).toNat * 2 ^ (headerWidth s.cap - 1 - j)).sum) := by decide

theorem witness_HideEqualsItsCommandSequence : ∃ t, exec .hide small = .next t ∧ t.ok := ⟨_, rfl, by decide⟩

theorem witness_RevealEqualsItsCommandSequence :
    (∃ t, exec .reveal (withCover 4 2 3 (List.replicate 24 254)) = .next t ∧ t.ok) ∧
      ∃ t, exec .reveal (withCover 4 2 3 (List.replicate 24 255)) = .next t ∧ ¬ t.ok :=
  ⟨⟨_, rfl, by decide⟩, ⟨_, rfl, by decide⟩⟩

/-- The revealing block may be the hiding one as HIDE left it. -/
theorem witness_HideThenRevealGivesThePayload :
    ∃ d : Block Config.params, small.toBlock.cmdHide (fun _ => 0) = .next d ∧ d.ok ∧ d.width = small.width ∧
      d.height = small.height ∧ d.channels = small.channels :=
  ⟨_, rfl, by decide, by decide, by decide, by decide⟩

theorem witness_EmptyPayloadRoundTrip :
    { small with plen := 0 }.plen = 0 ∧ { small with plen := 0 }.mode.toNat % 4 ≠ 3 ∧ (withCover 15 1 1 []).cap < 16 ∧
      (withCover 15 1 1 []).plen = 0 ∧ (withCover 15 1 1 []).mode.toNat % 4 = 0 := by decide

theorem witness_HideIgnoresTheWorkingRegisters : ∃ t, exec .hide small = .next t ∧ t.ok := ⟨_, rfl, by decide⟩

/-- Two blocks that differ in `MODE`, `PLEN` and a sample past the stream. -/
theorem witness_RevealDependsOnTheStreamSlotsAlone :
    let b := withCover 4 2 3 (List.replicate 24 254)
    let d := { withCover 4 2 3 (List.replicate 23 254 ++ [7]) with mode := 7, plen := 9 }
    d.width = b.width ∧ d.height = b.height ∧ d.channels = b.channels ∧
      ∀ k, k < headerWidth b.cap + 8 * decodeHeader (b.readLsbs 0 (headerWidth b.cap)) →
        lsb (d.readCov k) = lsb (b.readCov k) := by decide

theorem witness_RegistersChangeOnlyByTheirWriters :
    ∃ t, exec .hide small = .next t ∧ Instr.hide ∉ writersOf .dlen := ⟨_, rfl, by decide⟩

theorem witness_CommandsWriteOnlyListedElements :
    ∃ t, exec .wrlsb { small with idx := 3 } = .next t ∧ Access.payWrite 0 ∉ { small with idx := 3 }.accesses .wrlsb ∧
      Access.covWrite 4 ∉ { small with idx := 3 }.accesses .wrlsb := ⟨_, rfl, by decide, by decide⟩

/-- RDLSB of slot 0, over another PAY and a COV that agrees at slot 0 alone. -/
theorem witness_CommandsReadOnlyListedElements :
    (∃ t, exec .rdlsb small = .next t) ∧
      (∀ a, Access.payRead a ∈ small.accesses .rdlsb →
        { small with pay := [], cov := coverOf [255, 6] }.readPay a = small.readPay a) ∧
      ∀ k, Access.covRead k ∈ small.accesses .rdlsb →
        { small with pay := [], cov := coverOf [255, 6] }.readCov k = small.readCov k := by
  have h : small.accesses .rdlsb = [.covRead 0] := by decide
  refine ⟨⟨_, rfl⟩, fun a ha => ?_, fun k hk => ?_⟩
  · rw [h] at ha; simp at ha
  · rw [h] at hk
    obtain rfl : k = 0 := by simpa using hk
    decide

theorem witness_NoAccessOutsideTheSpaces :
    ∃ t, exec .readall small = .next t ∧ Access.covRead 23 ∈ small.accesses .readall := ⟨_, rfl, by decide⟩

theorem witness_UpperBitsOfSamplesAreKept :
    (∃ t, exec .wrlsb small = .next t ∧ small.bilevel = 0) ∧
      ∃ t, exec .wrlsb { small with mode := 4 } = .next t ∧ { small with mode := 4 }.bilevel = 1 ∧
        t.readCov 0 ≠ { small with mode := 4 }.readCov 0 :=
  ⟨⟨_, rfl, by decide⟩, ⟨_, rfl, by decide, by decide⟩⟩

theorem witness_EveryStepKeepsTheInvariant :
    (small.Inv ∧ ∃ t, step { small with host := [.txn (.cmd 0x40)] } = .next t) ∧
      (System.reset narrow).Inv ∧ ∃ n, System.step { System.reset narrow with host := [.txn (.cmd 0x41)] } = .next n :=
  ⟨⟨⟨by decide, by decide, by decide, by decide, by decide, by decide, by decide⟩, ⟨_, rfl⟩⟩,
    ⟨by decide, by decide, by decide, by decide, by decide, by decide, by decide⟩, ⟨_, rfl⟩⟩

end Sys2Proof.Tests
end

/-! The invariant of the block: every command, every move of the outside agent and every step keeps it; what a step
runs; and the machine of the host's interface as the general one (spec/00_scope.md R8, R9, R13). -/

namespace Sys2Proof.Machine

section
variable {P : Params} {b : Block P}

/-! ### Bounds -/

/-- BITBUF has room for the bits of a whole payload, or of a whole cover (R8: `BLW` is `CAPW + 4`). -/
theorem eight_mul_two_pow_capw_le (P : Params) : 8 * 2 ^ P.capw ≤ 2 ^ P.blw := by
  calc 8 * 2 ^ P.capw ≤ 2 ^ 4 * 2 ^ P.capw := Nat.mul_le_mul_right _ (by decide)
    _ = 2 ^ P.blw := by rw [Nat.mul_comm, ← Nat.pow_add]

/-- The decoder gives no more bytes than it has bits (R122). -/
theorem bitsToBytes_length_le (s : BitSeq) (l : Option Nat) : (bitsToBytes s l).length ≤ s.length := by
  rw [bitsToBytes_length]
  exact (Nat.div_le_self _ _).trans (availableBits_le s l)

/-! ### The invariant, one rule per operation -/

/-- A command that succeeds clears `ERR`, so both clauses about it hold (R36). -/
theorem Block.Inv.succeed (h : b.Inv) : b.succeed.Inv :=
  { h with
    err_legal := by rw [Block.succeed_err]; rfl
    err_sticky := fun hne => absurd b.succeed_err hne }

/-- Every code but that of `UnsupportedCoverFormat`, which the block never raises, is one of the legal ones (R224). -/
theorem legalErr_code {c : Cause} (hc : c ≠ .unsupportedCoverFormat) : legalErr c.code = true := by
  cases c with
  | unsupportedCoverFormat => exact absurd rfl hc
  | _ => rfl

/-- Raising a cause sets `FAULT` together with `ERR` (R226). -/
theorem Block.Inv.raise (h : b.Inv) {c : Cause} (hc : c ≠ .unsupportedCoverFormat) : (b.raise c).Inv :=
  { h with
    err_legal := by rw [Block.raise_err, legalErr_code hc]
    err_sticky := fun _ => b.raise_faultFlag c }

/-- Bytes that all have addresses keep PAY canonical and inside its range (R39). -/
theorem Block.Inv.storeBytes (h : b.Inv) {a : Nat} {bs : Payload} (hn : a + bs.length ≤ 2 ^ P.capw) :
    (b.storeBytes a bs).Inv := by
  rw [Block.storeBytes_frame]
  exact { h with pay_wf := b.storeBytes_wf h.pay_wf a bs, pay_below := b.storeBytes_below h.pay_below a bs hn }

theorem Block.Inv.writePay (h : b.Inv) {a : Nat} (ha : a < 2 ^ P.capw) (v : Byte) : (b.writePay a v).Inv :=
  h.storeBytes (a := a) (bs := [v]) ha

/-- A sample at an index a register can hold keeps COV canonical and inside its range (R40). -/
theorem Block.Inv.writeCov (h : b.Inv) {i : Nat} (hi : i < 2 ^ P.capw) (v : BitVec P.sw) : (b.writeCov i v).Inv :=
  { h with cov_wf := Memory.store_wf h.cov_wf i v, cov_below := Memory.store_below h.cov_below hi v }

/-- A stream no longer than the cover stays in the cover, filler included (R180, R182). -/
theorem Block.Inv.writeStream (h : b.Inv) (f : Option (Nat → Bit)) {s : BitSeq} (hs : s.length ≤ b.cap) :
    (b.writeStream f s).Inv := by
  rw [Block.writeStream_frame]
  exact
    { h with
      cov_wf := b.writeStream_wf h.cov_wf f s
      cov_below := b.writeStream_below h.cov_below b.cap_lt.le f s hs }

/-- The decoder's bytes are cut to the addresses PAY has (log 5). -/
theorem Block.Inv.decodedBy (h : b.Inv) (l : Option Nat) : (b.decodedBy l).Inv := by
  have hn : 0 + ((bitsToBytes b.bitbuf l).take (2 ^ P.capw)).length ≤ 2 ^ P.capw := by
    rw [Nat.zero_add]; exact List.length_take_le _ _
  exact { h.storeBytes hn with }

/-- A register write touches neither space, nor BITBUF, nor STATUS (R41). -/
theorem Block.Inv.writeReg (h : b.Inv) (v : RegValue P) : (b.writeReg v).Inv := by
  cases v <;> exact { h with }

/-- Reset keeps PAY and COV and empties the rest (R43, R250). -/
theorem Block.Inv.afterReset (h : b.Inv) : (Block.afterReset (P := P) b.pay b.cov).Inv :=
  { h with
    bitbuf_bound := Nat.two_pow_pos _
    err_legal := rfl
    err_sticky := fun hne => absurd rfl hne }

/-! ### Commands -/

/-- No command raises `UnsupportedCoverFormat` (R224). -/
theorem ne_unsupportedCoverFormat_of_mayRaise {i : Instr} {c : Cause} (hc : c ∈ mayRaise i) :
    c ≠ .unsupportedCoverFormat := by
  rintro rfl; revert hc; cases i <;> decide

/-- The effect of a command whose tests pass keeps the invariant: the tests, the bound of the capacity (R9) and the
width of `PLEN` bound what goes into BITBUF, PAY and COV. -/
theorem Block.Inv.effect (h : b.Inv) (rnd : Nat → Bit) {i : Instr} (hp : b.passes i) : (b.effect rnd i).Inv := by
  have hcap := b.cap_lt
  have hbuf := h.bitbuf_bound
  have hblw := eight_mul_two_pow_capw_le P
  cases i with
  | nop => exact h
  | eclr => exact { h with err_legal := rfl, err_sticky := fun hne => absurd rfl hne }
  | bclr => exact { h with bitbuf_bound := Nat.two_pow_pos _ }
  | bpush =>
    have hroom : b.bitbuf.length ≠ 2 ^ P.blw - 1 := hp
    have hlen : (b.bitbuf ++ [b.bit]).length < 2 ^ P.blw := by rw [List.length_append, List.length_singleton]; omega
    exact { h with bitbuf_bound := hlen }
  | bget => exact { h with }
  | bytes2bits =>
    have hlen : (bytesToBits (b.loadBytes b.plen.toNat)).length < 2 ^ P.blw := by
      rw [bytesToBits_length, Block.loadBytes_length]; have := b.plen.isLt; omega
    exact { h with bitbuf_bound := hlen }
  | bits2bytes => exact h.decodedBy _
  | bits2bytesl => exact h.decodedBy _
  | bits2bytesd => exact h.decodedBy _
  | hwidth => exact { h with }
  | validate => exact h
  | enchdr =>
    obtain ⟨-, -, hroom⟩ := hp
    have hlen : (encodeHeader b.plen.toNat b.hw.toNat ++ b.bitbuf).length < 2 ^ P.blw := by
      rw [List.length_append, encodeHeader_length]; omega
    exact { h with bitbuf_bound := hlen }
  | dechdr =>
    have hlen : (b.bitbuf.drop b.hw.toNat).length < 2 ^ P.blw := by rw [List.length_drop]; omega
    exact { h with bitbuf_bound := hlen }
  | map => exact { h with }
  | rdlsb => exact { h with }
  | wrlsb => exact h.writeCov (Nat.lt_trans hp hcap) _
  | readall =>
    have hlen : (b.readLsbs 0 b.cap).length < 2 ^ P.blw := by rw [Block.readLsbs_length]; omega
    exact { h with bitbuf_bound := hlen }
  | wrbits => exact h.writeStream _ hp.2
  | hide =>
    obtain ⟨-, hfits, -⟩ := hp
    have hlen : (streamOf (headerWidth b.cap) (b.loadBytes b.plen.toNat)).length ≤ b.cap := by
      rw [streamOf_loadBytes_length]; omega
    exact { h.writeStream _ hlen with bitbuf_bound := Nat.two_pow_pos _ }
  | reveal =>
    have hfits : headerWidth b.cap + 8 * decodeHeader (b.readLsbs 0 (headerWidth b.cap)) ≤ b.cap := hp
    refine { h.storeBytes (a := 0) ?_ with bitbuf_bound := Nat.two_pow_pos _ }
    rw [Nat.zero_add]
    refine (bitsToBytes_length_le _ _).trans ?_
    rw [Block.readLsbs_length]; omega

/-! ### The outside agent's moves and the step -/

variable {m n : System P}

/-- A command keeps the invariant, whether it raised a cause or had its whole effect. -/
theorem System.command_keeps_inv {i : Instr} (h : m.Inv) (hn : m.command i = .next n) : n.Inv := by
  rcases m.command_cases hn with ⟨c, hc, rfl⟩ | ⟨hp, rfl⟩
  · exact h.raise (ne_unsupportedCoverFormat_of_mayRaise hc)
  · exact (h.effect _ hp).succeed

/-- A reserved word raises `IllegalCommand`, another word runs its command (R102, R227). -/
theorem issueCommand_keeps_inv {w : Byte} (h : m.Inv) (hn : issueCommand System.command w m = .next n) : n.Inv := by
  unfold issueCommand at hn
  split at hn
  · exact System.command_keeps_inv h hn
  · cases hn; exact h.raise nofun
  · cases hn; exact h

/-- A PAY address and a COV index of a transaction are `CAPW` bits wide, so inside the ranges (R39, R40). -/
theorem performTxn_keeps_inv {t : Txn P} (h : m.Inv) (hn : performTxn System.command t m = .next n) : n.Inv := by
  cases t with
  | wr v => cases hn; exact h.writeReg v
  | rd r => cases hn; exact h
  | cmd w => exact issueCommand_keeps_inv h hn
  | payWrite a v => cases hn; exact h.writePay a.isLt v
  | payRead a => cases hn; exact h
  | covWrite i v =>
    simp only [performTxn] at hn
    split at hn
    · cases hn; exact h.writeCov i.isLt v
    · cases hn
  | covRead i =>
    simp only [performTxn] at hn
    split at hn
    · cases hn; exact h
    · cases hn
  | reset => cases hn; exact h.afterReset

/-- A directive changes the queue of lines only (log 9). -/
theorem performLine_keeps_inv {l : Line P} (h : m.Inv) (hn : performLine System.command l m = .next n) : n.Inv := by
  cases l with
  | txn t => exact performTxn_keeps_inv h hn
  | directive d =>
    simp only [performLine] at hn
    split at hn
    · cases hn; exact h
    · cases hn

/-- The invariant speaks of the block alone, so taking a line off the queue keeps it. -/
theorem System.step_keeps_inv (h : m.Inv) (hn : m.step = .next n) : n.Inv := by
  cases hl : m.host with
  | nil =>
    rw [System.step, takeLine, hl] at hn
    cases hn; exact h
  | cons l rest =>
    rw [System.step, takeLine, hl] at hn
    exact performLine_keeps_inv (m := { m with host := rest }) h hn

end

/-- Settles O60: the step of the host's interface is the general step, and that one keeps the invariant line by line. -/
theorem everyStepKeepsTheInvariant : Obligations.EveryStepKeepsTheInvariant := by
  refine ⟨fun s t hs hstep => ?_, fun P m n => System.step_keeps_inv⟩
  rw [step_eq_system_step, mapNext_eq_next] at hstep
  obtain ⟨n, hn, rfl⟩ := hstep
  exact System.step_keeps_inv hs hn

/-! ### What a step runs -/

/-- A step that issues a word is the command the word decodes to, the line taken (R13). -/
theorem step_of_decode {s : State} {w : Byte} {i : Instr} {rest : List (Line Config.params)}
    (hhost : s.host = .txn (.cmd w) :: rest) (hw : decode [w] = .command i []) :
    step s = exec i { s with host := rest } := by
  rw [step_cons hhost, exec_eq_command, performLine, performTxn, issueCommand, hw]

/-- The line `withFetchWord` places for a command is the command's own word. -/
theorem State.withFetchWord_encodeWord_host (s : State) (i : Instr) :
    (s.withFetchWord 8 (encodeWord i).toNat).host = .txn (.cmd (encodeWord i)) :: s.host := by
  rw [State.withFetchWord, BitVec.ofNat_toNat, BitVec.setWidth_eq]

/-- Settles O4: the line taken issues the word, and a word placed by `withFetchWord` is taken by the next step. -/
theorem stepRunsTheIssuedCommand : Obligations.StepRunsTheIssuedCommand :=
  ⟨fun _ _ _ _ => step_of_decode, fun s i => step_command (s.withFetchWord_encodeWord_host i)⟩

/-- Settles O5: both tables of commands, both steps and both reset states agree at the parameters of Config. -/
theorem theMachineTakesItsParameters : Obligations.TheMachineTakesItsParameters :=
  ⟨exec_eq_command, step_eq_system_step, rfl⟩

end Sys2Proof.Machine

/-! The registers, the host's accesses and reset (spec/10_state.md, spec/70_reset_and_hazards.md), and which command may
change which register. -/

namespace Sys2Proof.Machine

section
variable {P : Params} (b : Block P)

/-! ### Reading a register -/

/-- Every register reads 0 after reset, the views included (R43). -/
theorem Block.regNat_readReg_afterReset (pay : Memory 8) (cov : Memory P.sw) (r : Reg) :
    regNat ((Block.afterReset (P := P) pay cov).readReg r) = 0 := by
  cases r with
  | cap => simp [Block.readReg, regNat, Block.cap, Block.afterReset]
  | blen => simp [Block.readReg, regNat, Block.afterReset]
  | _ => exact BitVec.toNat_zero

/-- `CAP` reads as the capacity, which its width holds whole (R24, R9). -/
theorem Block.regNat_readReg_cap : regNat (b.readReg .cap) = b.cap :=
  (BitVec.toNat_ofNat _ _).trans (Nat.mod_eq_of_lt b.cap_lt)

/-- `BLEN` reads as the length of BITBUF where its width holds that length (R35). -/
theorem Block.regNat_readReg_blen (h : b.bitbuf.length < 2 ^ P.blw) : regNat (b.readReg .blen) = b.bitbuf.length :=
  (BitVec.toNat_ofNat _ _).trans (Nat.mod_eq_of_lt h)

/-- A write to a register the host may write is what the register then holds (R41). -/
theorem Block.readReg_writeReg_self {v : RegValue P} (h : hostMayWrite (regOf v) = true) :
    (b.writeReg v).readReg (regOf v) = v := by
  cases v with
  | width | height | channels | mode | hw | plen | limit | idx | bit => rfl
  | cap | dlen | olen | px | py | pch | blen | status => cases h

/-- A write to a read-only register is ignored (R41). -/
theorem Block.writeReg_readOnly {v : RegValue P} (h : hostMayWrite (regOf v) = false) : b.writeReg v = b := by
  cases v with
  | width | height | channels | mode | hw | plen | limit | idx | bit => cases h
  | cap | dlen | olen | px | py | pch | blen | status => rfl

/-- A write touches no other register, but that `CAP` follows the dimensions (R24, R41). -/
theorem Block.readReg_writeReg_ne {v : RegValue P} {r : Reg} (hr : r ≠ regOf v)
    (hcap : r = .cap → regOf v ∉ [Reg.width, Reg.height, Reg.channels]) :
    (b.writeReg v).readReg r = b.readReg r := by
  cases v with
  | cap | dlen | olen | px | py | pch | blen | status => rfl
  | width =>
    cases r with
    | width => exact absurd rfl hr
    | cap => exact absurd (by simp [regOf]) (hcap rfl)
    | _ => rfl
  | height =>
    cases r with
    | height => exact absurd rfl hr
    | cap => exact absurd (by simp [regOf]) (hcap rfl)
    | _ => rfl
  | channels =>
    cases r with
    | channels => exact absurd rfl hr
    | cap => exact absurd (by simp [regOf]) (hcap rfl)
    | _ => rfl
  | mode =>
    cases r with
    | mode => exact absurd rfl hr
    | _ => rfl
  | hw =>
    cases r with
    | hw => exact absurd rfl hr
    | _ => rfl
  | plen =>
    cases r with
    | plen => exact absurd rfl hr
    | _ => rfl
  | limit =>
    cases r with
    | limit => exact absurd rfl hr
    | _ => rfl
  | idx =>
    cases r with
    | idx => exact absurd rfl hr
    | _ => rfl
  | bit =>
    cases r with
    | bit => exact absurd rfl hr
    | _ => rfl

/-! ### Which registers each part of an effect leaves alone -/

/-- A change of STATUS shows in no other register. -/
theorem Block.readReg_status_ne {r : Reg} (hr : r ≠ .status) (v : BitVec 5) :
    { b with status := v }.readReg r = b.readReg r := by
  cases r with
  | status => exact absurd rfl hr
  | _ => rfl

/-- A change of BITBUF shows in no register but `BLEN` (R35). -/
theorem Block.readReg_bitbuf_ne {r : Reg} (hr : r ≠ .blen) (s : BitSeq) :
    { b with bitbuf := s }.readReg r = b.readReg r := by
  cases r with
  | blen => exact absurd rfl hr
  | _ => rfl

/-- The cover shows in no register. -/
theorem Block.readReg_cov (m : Memory P.sw) (r : Reg) : { b with cov := m }.readReg r = b.readReg r := by
  cases r <;> rfl

/-- A change of `HW` shows in no other register. -/
theorem Block.readReg_hw_ne {r : Reg} (hr : r ≠ .hw) (v : BitVec P.hww) :
    { b with hw := v }.readReg r = b.readReg r :=
  b.readReg_writeReg_ne (v := .hw v) hr fun _ => by simp [regOf]

/-- A change of `BIT` shows in no other register. -/
theorem Block.readReg_bit_ne {r : Reg} (hr : r ≠ .bit) (v : Bit) : { b with bit := v }.readReg r = b.readReg r :=
  b.readReg_writeReg_ne (v := .bit v) hr fun _ => by simp [regOf]

/-- A decoder command changes no register but `OLEN` (R125, R126, R127). -/
theorem Block.readReg_decodedBy_ne {r : Reg} (hr : r ≠ .olen) (l : Option Nat) :
    (b.decodedBy l).readReg r = b.readReg r := by
  rw [Block.decodedBy, Block.storeBytes_frame]
  cases r with
  | olen => exact absurd rfl hr
  | _ => rfl

/-- The whole effect of a command changes only the registers that list it as a writer (R21). -/
theorem Block.readReg_effect_of_not_writer (rnd : Nat → Bit) {i : Instr} {r : Reg} (h : i ∉ writersOf r) :
    (b.effect rnd i).readReg r = b.readReg r := by
  have ne : ∀ w, i ∈ writersOf w → r ≠ w := fun w hw hr => h (hr ▸ hw)
  cases i with
  | nop | validate => rfl
  | eclr => exact b.readReg_status_ne (ne .status (by decide)) _
  | bclr | bpush | bytes2bits | enchdr | readall => exact b.readReg_bitbuf_ne (ne .blen (by decide)) _
  | bget | rdlsb => exact b.readReg_bit_ne (ne .bit (by decide)) _
  | bits2bytes | bits2bytesl | bits2bytesd => exact b.readReg_decodedBy_ne (ne .olen (by decide)) _
  | hwidth => exact b.readReg_hw_ne (ne .hw (by decide)) _
  | dechdr =>
    cases r with
    | dlen => exact absurd rfl (ne .dlen (by decide))
    | blen => exact absurd rfl (ne .blen (by decide))
    | _ => rfl
  | map =>
    cases r with
    | px => exact absurd rfl (ne .px (by decide))
    | py => exact absurd rfl (ne .py (by decide))
    | pch => exact absurd rfl (ne .pch (by decide))
    | _ => rfl
  | wrlsb => exact b.readReg_cov _ r
  | wrbits => rw [Block.effect, Block.writeStream_frame]; exact b.readReg_cov _ r
  | hide =>
    rw [Block.effect, Block.writeStream_frame]
    exact (Block.readReg_bitbuf_ne _ (ne .blen (by decide)) _).trans
      ((Block.readReg_hw_ne _ (ne .hw (by decide)) _).trans (b.readReg_cov _ r))
  | reveal =>
    simp only [Block.effect]
    rw [Block.storeBytes_frame]
    cases r with
    | hw => exact absurd rfl (ne .hw (by decide))
    | dlen => exact absurd rfl (ne .dlen (by decide))
    | olen => exact absurd rfl (ne .olen (by decide))
    | blen => exact absurd rfl (ne .blen (by decide))
    | _ => rfl

/-- No command but ECLR writes STATUS before its end (R36). -/
theorem Block.effect_status (rnd : Nat → Bit) {i : Instr} (h : i ≠ .eclr) : (b.effect rnd i).status = b.status := by
  cases i with
  | eclr => exact absurd rfl h
  | bits2bytes | bits2bytesl | bits2bytesd | reveal => exact b.storeBytes_status _ _
  | wrbits | hide => exact b.writeStream_status _ _
  | _ => rfl

theorem Block.effect_faultFlag (rnd : Nat → Bit) {i : Instr} (h : i ≠ .eclr) :
    (b.effect rnd i).faultFlag = b.faultFlag :=
  congrArg statusFault (b.effect_status rnd h)

/-- At least as many decoded bytes as PAY has addresses fill PAY, byte `k` at address `k` (R39; log 5). -/
theorem Block.readPay_decodedBy_of_le {l : Option Nat} (h : 2 ^ P.capw ≤ availableBits b.bitbuf l / 8) (k : Nat) :
    (b.decodedBy l).readPay k = if k < 2 ^ P.capw then byteFrom b.bitbuf k else b.readPay k := by
  have hlen : ((bitsToBytes b.bitbuf l).take (2 ^ P.capw)).length = 2 ^ P.capw := by
    rw [List.length_take, bitsToBytes_length, Nat.min_eq_left h]
  refine (b.readPay_storeBytes _ _ k).trans ?_
  rw [hlen, Nat.zero_add, Nat.sub_zero]
  simp only [Nat.zero_le, true_and]
  split
  · next hk =>
    rw [List.getD_eq_getElem?_getD, List.getElem?_take_of_lt hk, ← List.getD_eq_getElem?_getD,
      bitsToBytes_getD _ _ (hk.trans_le h)]
  · rfl

end

/-! ### Steps that take a transaction -/

/-- A step that takes a transaction is that transaction, the line taken (R13). -/
theorem step_txn {s : State} {t : Txn Config.params} {rest : List (Line Config.params)} (h : s.host = .txn t :: rest) :
    step s = mapNext State.mk (performTxn System.command t { s.toSystem with host := rest }) :=
  step_cons h

/-! ### The statements -/

/-- Settles O19: raising sets both fields, succeeding clears `ERR`, and only ECLR's effect touches STATUS. -/
theorem faultFlagIsSticky : Obligations.FaultFlagIsSticky := by
  intro i s t h
  rcases exec_cases h with ⟨c, hc, rfl⟩ | ⟨-, rfl⟩
  · refine ⟨fun _ => ?_, ?_⟩
    · exact iff_of_true (Block.raise_faultFlag _ c) (.inr (ne_of_eq_of_ne (Block.raise_err _ c) c.code_ne_zero))
    · rintro rfl; cases hc
  · refine ⟨fun hi => ?_, ?_⟩
    · simp only [State.after_toBlock, Block.succeed_faultFlag, Block.succeed_err, Block.effect_faultFlag _ _ hi, ne_eq,
        not_true_eq_false, or_false]
    · rintro rfl
      exact ⟨Block.succeed_err _, (Block.succeed_faultFlag _).trans (statusFault_of 0 0)⟩

/-- Settles O54: every command writes STATUS; beyond that a command that raises changes nothing, and one that succeeds
changes what its effect changes. -/
theorem registersChangeOnlyByTheirWriters : Obligations.RegistersChangeOnlyByTheirWriters := by
  intro i s t r h hr
  have hstatus : r ≠ .status := by rintro rfl; exact hr (by cases i <;> decide)
  rcases exec_cases h with ⟨c, -, rfl⟩ | ⟨-, rfl⟩
  · exact s.toBlock.readReg_status_ne hstatus _
  · exact (Block.readReg_status_ne _ hstatus _).trans (s.toBlock.readReg_effect_of_not_writer _ hr)

/-- Settles O26: both commands deliver the decoder's bytes, which here fill PAY (logs 4, 5). -/
theorem decoderCountPastTheRegister : Obligations.DecoderCountPastTheRegister := by
  rintro i s n (⟨rfl, rfl⟩ | ⟨rfl, rfl⟩) hn
  · exact ⟨_, _, run_deliver s fun b => bitsToBytes b.bitbuf none, s.toBlock.readPay_decodedBy_of_le hn⟩
  · exact ⟨_, _, run_deliver s fun b => bitsToBytes b.bitbuf (some b.limit.toNat),
      s.toBlock.readPay_decodedBy_of_le (l := some s.limit.toNat) hn⟩

/-- Settles O7: reset is `Block.afterReset` over the spaces as they stand. -/
theorem resetZeroesRegistersKeepsSpaces : Obligations.ResetZeroesRegistersKeepsSpaces :=
  ⟨⟨Block.regNat_readReg_afterReset _ _, rfl⟩, fun _ _ h =>
    ⟨_, step_txn h, Block.regNat_readReg_afterReset _ _, rfl, rfl, rfl, rfl, rfl, rfl⟩⟩

/-- Settles O8: a read only fills `reply`; a write is `Block.writeReg`, which changes one register or nothing. -/
theorem hostRegisterAccess : Obligations.HostRegisterAccess := by
  refine ⟨fun s r rest h => step_txn h, fun s v rest h => ⟨_, step_txn h, ?_, ?_, ?_, ?_⟩⟩
  · exact s.toBlock.readReg_writeReg_self
  · intro hv
    simp only [Block.writeReg_readOnly _ hv]
  · exact fun r => s.toBlock.readReg_writeReg_ne
  · cases v <;> exact ⟨rfl, rfl, rfl, rfl, rfl, rfl, rfl⟩

/-- Settles O9: the views of R24 and R35, with the bound of R9. -/
theorem capAndBlenAreViews : Obligations.CapAndBlenAreViews :=
  fun _ b => ⟨⟨b.regNat_readReg_cap, b.cap_lt, fun _ => rfl⟩, b.regNat_readReg_blen⟩

/-- `MODE.FILL` as a number (R25). -/
theorem modeFill_toNat (m : BitVec 3) : (modeFill m).toNat = m.toNat % 4 := by
  revert m; decide

/-- Settles O10: the numbers of the fields of STATUS and MODE, and the filler mode by the number in MODE. -/
theorem statusAndModeLayout : Obligations.StatusAndModeLayout := by
  intro P b
  refine ⟨status_toNat b.status, fun f e => ?_, ?_, b.fill?_eq_no_filler, b.fill?_eq_zeroes, b.fill?_eq_random,
    b.fill?_eq_none⟩
  · rw [status_toNat, statusFault_of, statusErr_of]
  · rw [← modeFill_toNat]; exact mode_toNat b.mode

/-- Settles O11: an access reads or writes one cell of its space, after the test of the index where the space is COV. -/
theorem outsideAccessToTheSpaces : Obligations.OutsideAccessToTheSpaces := by
  intro s rest a v x
  refine ⟨fun h => ⟨_, step_txn h, s.toBlock.readPay_writePay a.toNat v⟩, fun h => step_txn h, fun h ha => ?_,
    fun h ha => ?_, fun h ha => ?_⟩
  · exact ⟨_, (step_txn h).trans (congrArg (mapNext State.mk) (if_pos ha)), s.toBlock.readCov_writeCov a.toNat x⟩
  · exact (step_txn h).trans (congrArg (mapNext State.mk) (if_pos ha))
  · rcases h with h | h <;> exact (step_txn h).trans (congrArg (mapNext State.mk) (if_neg (Nat.not_lt.2 ha)))

/-- Nothing is listed in either space and every register is 0 (R43). -/
theorem System.reset_inv (P : Params) : (System.reset P).Inv where
  pay_wf := List.Pairwise.nil
  cov_wf := List.Pairwise.nil
  pay_below := nofun
  cov_below := nofun
  bitbuf_bound := Nat.two_pow_pos _
  err_legal := rfl
  err_sticky := fun hne => absurd rfl hne

/-- Settles O59: State.reset is the general reset at the parameters of Config. -/
theorem resetMeetsTheInvariant : Obligations.ResetMeetsTheInvariant := ⟨System.reset_inv _, System.reset_inv⟩

end Sys2Proof.Machine

/-! The collaborator's pixel port (spec/20_memory.md R65): writing one element of a pixel's tuple writes one slot. -/

namespace Sys2Proof.Machine

section
variable {P : Params} (b : Block P)

/-- After samples are written from `i` upward: sample `k - i` at the slots they cover, the old sample elsewhere. -/
theorem Block.readCov_writeSamples (i : Nat) (vs : List (BitVec P.sw)) (k : Nat) :
    (b.writeSamples i vs).readCov k = if i ≤ k ∧ k < i + vs.length then vs.getD (k - i) 0 else b.readCov k := by
  induction vs generalizing b i with
  | nil => rw [if_neg (by simp)]; rfl
  | cons v vs ih =>
    rw [Block.writeSamples, ih, Block.readCov_writeCov, List.length_cons]
    by_cases h : k = i
    · subst h; rw [if_neg (by omega), if_pos rfl, if_pos (by omega)]; simp
    · rw [if_neg h]
      by_cases h2 : i + 1 ≤ k ∧ k < i + 1 + vs.length
      · rw [if_pos h2, if_pos (by omega), show k - i = k - (i + 1) + 1 by omega]; simp
      · rw [if_neg h2, if_neg (by omega)]

/-- A run of slots written back with one sample replaced differs from the old one at that slot alone. -/
theorem Block.readCov_writeSamples_set (i : Nat) {n j : Nat} (hj : j < n) (v : BitVec P.sw) (k : Nat) :
    (b.writeSamples i (((List.range n).map fun c => b.readCov (i + c)).set j v)).readCov k =
      if k = i + j then v else b.readCov k := by
  rw [Block.readCov_writeSamples, List.length_set, List.length_map, List.length_range, List.getD_eq_getElem?_getD]
  by_cases hk : i ≤ k ∧ k < i + n
  · obtain ⟨d, rfl⟩ := Nat.exists_eq_add_of_le hk.1
    have hd : d < n := by omega
    rw [if_pos hk, Nat.add_sub_cancel_left, List.getElem?_set]
    by_cases hjd : j = d
    · simp [hjd, hd]
    · rw [if_neg hjd, if_neg (by omega)]
      simp [hd]
  · rw [if_neg hk, if_neg (by omega)]

/-- The channels of the pixel of slot `i` are the slots from `i / channels * channels` upward (R171). -/
theorem pixelToSlot_slotToPixel (width channels i c : Nat) :
    pixelToSlot width channels ⟨(slotToPixel width channels i).x, (slotToPixel width channels i).y, c⟩ =
      i / channels * channels + c := by
  simp only [pixelToSlot, slotToPixel, Nat.div_add_mod']

end

/-- Settles O44: the pixel's tuple is the run of slots that starts at its channel 0, and slot `i` is its element
`i % channels`. -/
theorem pixelPortWritesTheSameSample : Obligations.PixelPortWritesTheSameSample := by
  intro P b i x hi p k
  have hchannels : 0 < b.channels.toNat := by
    rcases Nat.eq_zero_or_pos b.channels.toNat with h0 | h0
    · simp [Block.cap, h0] at hi
    · exact h0
  have hslot : i / b.channels.toNat * b.channels.toNat + p.c = i := Nat.div_add_mod' i _
  have hc : p.c < b.channels.toNat := Nat.mod_lt i hchannels
  simp only [Block.setPixel, Block.getPixel, p, pixelToSlot_slotToPixel, Nat.add_zero]
  rw [Block.readCov_writeSamples_set _ _ hc, hslot, Block.readCov_putSlot]

end Sys2Proof.Machine

/-! The table of accesses (spec/20_memory.md R67, R71): what its rows hold, that a command which
faults writes nothing, and that no access leaves the spaces. -/

namespace Sys2Proof.Machine

/-! ### The rows of the table -/

/-- The `n` slots from 0 upward are each read and written (R64). -/
theorem mem_slotWrites {n : Nat} {x : Access} :
    x ∈ slotWrites n ↔ ∃ k < n, x = .covRead k ∨ x = .covWrite k := by
  simp [slotWrites]

@[simp] theorem covRead_mem_slotWrites {n k : Nat} : .covRead k ∈ slotWrites n ↔ k < n := by simp [mem_slotWrites]
@[simp] theorem covWrite_mem_slotWrites {n k : Nat} : .covWrite k ∈ slotWrites n ↔ k < n := by simp [mem_slotWrites]
@[simp] theorem payRead_not_mem_slotWrites {n a : Nat} : .payRead a ∉ slotWrites n := by simp [mem_slotWrites]
@[simp] theorem payWrite_not_mem_slotWrites {n a : Nat} : .payWrite a ∉ slotWrites n := by simp [mem_slotWrites]

section
variable {P : Params} {b : Block P}

/-- BITS2BYTESD decodes at most `DLEN` bytes, which all have addresses (R30, R127). -/
theorem Block.accesses_bits2bytesd (b : Block P) :
    b.accesses .bits2bytesd =
      (List.range (min (availableBits b.bitbuf (some (8 * b.dlen.toNat)) / 8) (2 ^ P.capw))).map .payWrite := by
  have hle : availableBits b.bitbuf (some (8 * b.dlen.toNat)) ≤ 8 * b.dlen.toNat := Nat.min_le_right _ _
  have hlt := b.dlen.isLt
  rw [Block.accesses, Nat.min_eq_left (by omega)]

theorem Block.accesses_rdlsb (h : b.idx.toNat < b.cap) : b.accesses .rdlsb = [.covRead b.idx.toNat] := if_pos h

theorem Block.accesses_wrlsb (h : b.idx.toNat < b.cap) :
    b.accesses .wrlsb = [.covRead b.idx.toNat, .covWrite b.idx.toNat] := if_pos h

/-- The row of a WRBITS whose tests pass, which names a filler mode. -/
theorem Block.accesses_wrbits (h : b.passes .wrbits) :
    ∃ f, b.fill? = some f ∧ b.bitbuf.length ≤ b.cap ∧
      b.accesses .wrbits = slotWrites (slotsWritten f b.bitbuf.length b.cap) := by
  obtain ⟨hfill, hlen⟩ := h
  obtain ⟨f, hf⟩ := Option.ne_none_iff_exists'.1 hfill
  exact ⟨f, hf, hlen, by simp only [Block.accesses, hf, if_pos hlen]⟩

/-- The row of a HIDE whose tests pass, which names a filler mode. -/
theorem Block.accesses_hide (h : b.passes .hide) :
    ∃ f, b.fill? = some f ∧ headerWidth b.cap + 8 * b.plen.toNat ≤ b.cap ∧
      b.accesses .hide =
        (List.range b.plen.toNat).map .payRead ++
          slotWrites (slotsWritten f (headerWidth b.cap + 8 * b.plen.toNat) b.cap) := by
  obtain ⟨hfill, hfits⟩ := h
  obtain ⟨f, hf⟩ := Option.ne_none_iff_exists'.1 hfill
  exact ⟨f, hf, by omega, by simp only [Block.accesses, hf, capacityCheck_eq_none.2 hfits]⟩

theorem Block.accesses_reveal (h : b.passes .reveal) :
    b.accesses .reveal =
      (List.range (headerWidth b.cap + 8 * decodeHeader (b.readLsbs 0 (headerWidth b.cap)))).map .covRead ++
        (List.range (decodeHeader (b.readLsbs 0 (headerWidth b.cap)))).map .payWrite := if_pos h

/-- A REVEAL that faults has read its header (R231). -/
theorem Block.accesses_reveal_of_not_passes (h : ¬ b.passes .reveal) :
    b.accesses .reveal = (List.range (headerWidth b.cap)).map .covRead := if_neg h

/-- Any other command that faults makes no access (R71, R231). -/
theorem Block.accesses_of_not_passes {i : Instr} (h : ¬ b.passes i) (hi : i ≠ .reveal) : b.accesses i = [] := by
  cases i with
  | bpush | bget | validate | enchdr | dechdr | map => rfl
  | rdlsb | wrlsb => exact if_neg h
  | wrbits =>
    cases hf : b.fill? with
    | none => simp only [Block.accesses, hf]
    | some f => simp only [Block.accesses, hf, if_neg fun hl => h ⟨by simp [hf], hl⟩]
  | hide =>
    cases hf : b.fill? with
    | none => simp only [Block.accesses, hf]
    | some f =>
      cases hc : capacityCheck b.plen.toNat b.cap (headerWidth b.cap) with
      | none => exact absurd ⟨by simp [hf], capacityCheck_eq_none.1 hc⟩ h
      | some e => simp only [Block.accesses, hf, hc]
  | reveal => exact absurd rfl hi
  | nop | eclr | bclr | bytes2bits | bits2bytes | bits2bytesl | bits2bytesd | hwidth | readall => exact absurd trivial h

/-- A command that faults writes no element of PAY (R226). -/
theorem Block.passes_of_payWrite {i : Instr} {a : Nat} (h : .payWrite a ∈ b.accesses i) : b.passes i := by
  by_contra hp
  by_cases hi : i = .reveal
  · subst hi; simp [Block.accesses_reveal_of_not_passes hp] at h
  · simp [Block.accesses_of_not_passes hp hi] at h

/-- A command that faults writes no element of COV (R226). -/
theorem Block.passes_of_covWrite {i : Instr} {k : Nat} (h : .covWrite k ∈ b.accesses i) : b.passes i := by
  by_contra hp
  by_cases hi : i = .reveal
  · subst hi; simp [Block.accesses_reveal_of_not_passes hp] at h
  · simp [Block.accesses_of_not_passes hp hi] at h

end

/-! ### No access outside the spaces -/

/-- The element an access touches exists, in PAY with `CAPW`-bit addresses and a cover of `cap` slots (R39, R40). -/
def Access.InSpaces (P : Params) (cap : Nat) : Access → Prop
  | .payRead a => a < 2 ^ P.capw
  | .payWrite a => a < 2 ^ P.capw
  | .covRead k => k < cap
  | .covWrite k => k < cap

section
variable {P : Params} {b : Block P}

/-- A filling command writes no slot past the cover, if its stream fits the cover (R180). -/
theorem slotsWritten_le (f : Fill) {n cap : Nat} (h : n ≤ cap) : slotsWritten f n cap ≤ cap := by
  cases f with
  | none => exact h
  | zeroes | random => exact Nat.le_refl cap

theorem slotWrites_inSpaces {n cap : Nat} (h : n ≤ cap) : ∀ x ∈ slotWrites n, x.InSpaces P cap := by
  intro x hx
  obtain ⟨k, hk, rfl | rfl⟩ := mem_slotWrites.1 hx <;> exact hk.trans_le h

theorem map_range_inSpaces {access : Nat → Access} {n cap : Nat} (h : ∀ k < n, (access k).InSpaces P cap) :
    ∀ x ∈ (List.range n).map access, Access.InSpaces P cap x :=
  List.forall_mem_map.2 fun k hk => h k (List.mem_range.1 hk)

/-- Every access of a command's row is inside the spaces: the command's tests bound it where they pass, and a command
whose tests fail reads at most a header, which the cover can hold (R67, R147). -/
theorem Block.accesses_inSpaces (b : Block P) (i : Instr) : ∀ x ∈ b.accesses i, x.InSpaces P b.cap := by
  have hcap := b.cap_lt
  by_cases hp : b.passes i
  · cases i with
    | nop | eclr | bclr | bpush | bget | hwidth | validate | enchdr | dechdr | map => exact List.forall_mem_nil _
    | bytes2bits => exact map_range_inSpaces fun _ ha => ha.trans b.plen.isLt
    | bits2bytes | bits2bytesl => exact map_range_inSpaces fun _ ha => ha.trans_le (Nat.min_le_right _ _)
    | bits2bytesd =>
      rw [b.accesses_bits2bytesd]
      exact map_range_inSpaces fun _ ha => ha.trans_le (Nat.min_le_right _ _)
    | rdlsb =>
      have hidx : b.idx.toNat < b.cap := hp
      rw [Block.accesses_rdlsb hp]; simpa [Access.InSpaces] using hidx
    | wrlsb =>
      have hidx : b.idx.toNat < b.cap := hp
      rw [Block.accesses_wrlsb hp]; simpa [Access.InSpaces] using hidx
    | readall => exact map_range_inSpaces fun _ hk => hk
    | wrbits =>
      obtain ⟨f, -, hlen, hrow⟩ := Block.accesses_wrbits hp
      rw [hrow]
      exact slotWrites_inSpaces (slotsWritten_le f hlen)
    | hide =>
      obtain ⟨f, -, hlen, hrow⟩ := Block.accesses_hide hp
      rw [hrow, List.forall_mem_append]
      exact ⟨map_range_inSpaces fun _ ha => ha.trans b.plen.isLt, slotWrites_inSpaces (slotsWritten_le f hlen)⟩
    | reveal =>
      have hfits : headerWidth b.cap + 8 * decodeHeader (b.readLsbs 0 (headerWidth b.cap)) ≤ b.cap := hp
      rw [Block.accesses_reveal hp, List.forall_mem_append]
      exact ⟨map_range_inSpaces fun _ hk => hk.trans_le hfits, map_range_inSpaces fun _ ha => by
        simp only [Access.InSpaces]; omega⟩
  · by_cases hi : i = .reveal
    · subst hi
      rw [Block.accesses_reveal_of_not_passes hp]
      exact map_range_inSpaces fun _ hk => hk.trans_le (headerWidth_le_self _)
    · rw [Block.accesses_of_not_passes hp hi]
      exact List.forall_mem_nil _

end

/-- Settles O57: the rows of the table are inside the spaces, whatever the command's outcome. -/
theorem noAccessOutsideTheSpaces : Obligations.NoAccessOutsideTheSpaces := by
  intro i s t _ x hx
  have hin := s.toBlock.accesses_inSpaces i x hx
  cases x with
  | payRead | payWrite | covRead | covWrite => exact hin

end Sys2Proof.Machine

/-! What a command writes (spec/20_memory.md R71, spec/42_channel_mapper.md R184): nothing outside its row of the
table. -/

namespace Sys2Proof.Machine

section
variable {P : Params} (b : Block P)

/-! ### Streams and payloads, element by element -/

/-- Putting in one run of bits after another is putting in their concatenation. -/
theorem Block.putBits_append (i : Nat) (s t : BitSeq) :
    b.putBits i (s ++ t) = (b.putBits i s).putBits (i + s.length) t := by
  induction s generalizing b i with
  | nil => rfl
  | cons x s ih =>
    rw [List.cons_append, Block.putBits, ih, List.length_cons, Nat.add_right_comm]; rfl

/-- The bits a filling command writes from slot 0 on a cover of `cap` slots: the stream, then its filler (R180). -/
def filledStream (rnd : Nat → Bit) (f : Fill) (cap : Nat) (s : BitSeq) : BitSeq :=
  s ++ fillerBits (fillerOf rnd f) (cap - s.length)

/-- A filling command writes as many bits as its row has slots (R180 to R182). -/
theorem filledStream_length (rnd : Nat → Bit) (f : Fill) {cap : Nat} {s : BitSeq} (h : s.length ≤ cap) :
    (filledStream rnd f cap s).length = slotsWritten f s.length cap := by
  rw [filledStream, List.length_append]
  cases f with
  | none => rfl
  | zeroes | random => rw [fillerOf, fillerBits_some_length, slotsWritten, Nat.add_sub_cancel' h]

/-- A written stream, filler included, one slot at a time: the slots listed as written hold their bit, the others keep
their sample. -/
theorem Block.readCov_writeStream (rnd : Nat → Bit) (f : Fill) {s : BitSeq} (h : s.length ≤ b.cap) (k : Nat) :
    (b.writeStream (fillerOf rnd f) s).readCov k =
      if k < slotsWritten f s.length b.cap then
        putBit b.bilevel (b.readCov k) (bitAt (filledStream rnd f b.cap s) k)
      else b.readCov k := by
  have hput : b.writeStream (fillerOf rnd f) s = b.putBits 0 (filledStream rnd f b.cap s) := by
    rw [filledStream, Block.putBits_append, Nat.zero_add, Block.writeStream]
  rw [hput, Block.readCov_putBits, filledStream_length rnd f h]
  simp only [Nat.zero_le, true_and, Nat.zero_add, Nat.sub_zero]

/-- Decoded bytes stored from PAY address 0: byte `k` at address `k`, the old byte past the last one (R122). -/
theorem Block.readPay_storeBytes_bitsToBytes (s : BitSeq) (l : Option Nat) (k : Nat) :
    (b.storeBytes 0 (bitsToBytes s l)).readPay k =
      if k < availableBits s l / 8 then byteFrom s k else b.readPay k := by
  rw [Block.readPay_storeBytes]
  simp only [Nat.zero_le, true_and, Nat.zero_add, Nat.sub_zero, bitsToBytes_length]
  split
  · next hk => exact bitsToBytes_getD s l hk
  · rfl

/-- What a decoder command leaves in PAY: byte `k` at the addresses listed as written, the old byte elsewhere. -/
theorem Block.readPay_decodedBy (l : Option Nat) (k : Nat) :
    (b.decodedBy l).readPay k =
      if k < min (availableBits b.bitbuf l / 8) (2 ^ P.capw) then byteFrom b.bitbuf k else b.readPay k := by
  by_cases h : availableBits b.bitbuf l / 8 < 2 ^ P.capw
  · rw [b.decodedBy_of_lt h, Nat.min_eq_left h.le]
    exact b.readPay_storeBytes_bitsToBytes b.bitbuf l k
  · rw [b.readPay_decodedBy_of_le (Nat.not_lt.1 h), Nat.min_eq_right (Nat.not_lt.1 h)]

/-- What REVEAL leaves in PAY: the bytes of its slots at the addresses below the header's length, the old ones
elsewhere. -/
theorem Block.readPay_effect_reveal (rnd : Nat → Bit) (k : Nat) :
    (b.effect rnd .reveal).readPay k =
      if k < decodeHeader (b.readLsbs 0 (headerWidth b.cap)) then
        byteFrom (b.readLsbs (headerWidth b.cap) (8 * decodeHeader (b.readLsbs 0 (headerWidth b.cap)))) k
      else b.readPay k := by
  have hlen (n : Nat) : availableBits (b.readLsbs (headerWidth b.cap) (8 * n)) (some (8 * n)) / 8 = n := by
    rw [availableBits, Block.readLsbs_length, Nat.min_self, Nat.mul_div_cancel_left n (by decide)]
  refine (b.readPay_storeBytes_bitsToBytes _ _ k).trans ?_
  rw [hlen]

/-- What WRBITS leaves in COV: the bits of BITBUF and the filler in the slots its row writes. -/
theorem Block.readCov_effect_wrbits (rnd : Nat → Bit) {f : Fill} (hf : b.fill? = some f)
    (h : b.bitbuf.length ≤ b.cap) (k : Nat) :
    (b.effect rnd .wrbits).readCov k =
      if k < slotsWritten f b.bitbuf.length b.cap then
        putBit b.bilevel (b.readCov k) (bitAt (filledStream rnd f b.cap b.bitbuf) k)
      else b.readCov k := by
  rw [Block.effect, hf, Option.bind_some, b.readCov_writeStream rnd f h]

/-- What HIDE leaves in COV: the stream of the payload and the filler in the slots its row writes. -/
theorem Block.readCov_effect_hide (rnd : Nat → Bit) {f : Fill} (hf : b.fill? = some f)
    (h : headerWidth b.cap + 8 * b.plen.toNat ≤ b.cap) (k : Nat) :
    (b.effect rnd .hide).readCov k =
      if k < slotsWritten f (headerWidth b.cap + 8 * b.plen.toNat) b.cap then
        putBit b.bilevel (b.readCov k)
          (bitAt (filledStream rnd f b.cap (streamOf (headerWidth b.cap) (b.loadBytes b.plen.toNat))) k)
      else b.readCov k := by
  have hlen := streamOf_loadBytes_length b (headerWidth b.cap) b.plen.toNat
  simp only [Block.effect, hf, Option.bind_some]
  rw [← hlen] at h ⊢
  exact b.readCov_writeStream rnd f h k

/-! ### The frame of each command -/

/-- The effect of a command keeps the bytes its row does not write. -/
theorem Block.readPay_effect_of_not_listed (rnd : Nat → Bit) {i : Instr} (hp : b.passes i) {a : Nat}
    (ha : .payWrite a ∉ b.accesses i) : (b.effect rnd i).readPay a = b.readPay a := by
  cases i with
  | nop | eclr | bclr | bpush | bget | bytes2bits | hwidth | validate | enchdr | dechdr | map | rdlsb | wrlsb
  | readall => rfl
  | bits2bytes | bits2bytesl =>
    exact (b.readPay_decodedBy _ a).trans (if_neg fun h => ha (List.mem_map_of_mem (List.mem_range.2 h)))
  | bits2bytesd =>
    rw [b.accesses_bits2bytesd] at ha
    exact (b.readPay_decodedBy _ a).trans (if_neg fun h => ha (List.mem_map_of_mem (List.mem_range.2 h)))
  | wrbits | hide => exact b.writeStream_readPay _ _ a
  | reveal =>
    rw [Block.accesses_reveal hp] at ha
    exact (b.readPay_effect_reveal rnd a).trans
      (if_neg fun h => ha (List.mem_append_right _ (List.mem_map_of_mem (List.mem_range.2 h))))

/-- The effect of a command keeps the samples its row does not write. -/
theorem Block.readCov_effect_of_not_listed (rnd : Nat → Bit) {i : Instr} (hp : b.passes i) {k : Nat}
    (hk : .covWrite k ∉ b.accesses i) : (b.effect rnd i).readCov k = b.readCov k := by
  cases i with
  | nop | eclr | bclr | bpush | bget | bytes2bits | hwidth | validate | enchdr | dechdr | map | rdlsb | readall => rfl
  | bits2bytes | bits2bytesl | bits2bytesd | reveal => exact b.storeBytes_readCov _ _ k
  | wrlsb =>
    rw [Block.accesses_wrlsb hp] at hk
    exact (b.readCov_putSlot _ _ k).trans (if_neg fun h => hk (by simp [h]))
  | wrbits =>
    obtain ⟨f, hf, hlen, hrow⟩ := Block.accesses_wrbits hp
    rw [hrow, covWrite_mem_slotWrites] at hk
    rw [b.readCov_effect_wrbits rnd hf hlen, if_neg hk]
  | hide =>
    obtain ⟨f, hf, hlen, hrow⟩ := Block.accesses_hide hp
    have hnot : ¬ k < slotsWritten f (headerWidth b.cap + 8 * b.plen.toNat) b.cap := fun h =>
      hk (by rw [hrow]; exact List.mem_append_right _ (covWrite_mem_slotWrites.2 h))
    rw [b.readCov_effect_hide rnd hf hlen, if_neg hnot]

end

/-- Settles O55: a command that raises keeps both spaces, and the effect of one that succeeds keeps to its row. -/
theorem commandsWriteOnlyListedElements : Obligations.CommandsWriteOnlyListedElements := by
  intro i s t h
  rcases exec_cases h with ⟨c, -, rfl⟩ | ⟨hp, rfl⟩
  · exact ⟨fun _ _ => rfl, fun _ _ => rfl⟩
  · exact ⟨fun _ => s.toBlock.readPay_effect_of_not_listed _ hp,
      fun _ => s.toBlock.readCov_effect_of_not_listed _ hp⟩

end Sys2Proof.Machine

/-! What a command reads (spec/20_memory.md R71): over other spaces that agree on the elements its row of the table
reads, it does the same. -/

namespace Sys2Proof.Machine

section
variable {P : Params} (b : Block P) (m : Memory 8) (c : Memory P.sw)

/-! ### The same block over other spaces -/

/-- The block with other contents of PAY and COV, its registers and BITBUF as they were. -/
def Block.withSpaces : Block P := { b with pay := m, cov := c }

@[simp] theorem Block.withSpaces_hw : (b.withSpaces m c).hw = b.hw := rfl
@[simp] theorem Block.withSpaces_plen : (b.withSpaces m c).plen = b.plen := rfl
@[simp] theorem Block.withSpaces_idx : (b.withSpaces m c).idx = b.idx := rfl
@[simp] theorem Block.withSpaces_bit : (b.withSpaces m c).bit = b.bit := rfl
@[simp] theorem Block.withSpaces_bitbuf : (b.withSpaces m c).bitbuf = b.bitbuf := rfl
@[simp] theorem Block.withSpaces_cap : (b.withSpaces m c).cap = b.cap := rfl
@[simp] theorem Block.withSpaces_bilevel : (b.withSpaces m c).bilevel = b.bilevel := rfl
@[simp] theorem Block.withSpaces_fill? : (b.withSpaces m c).fill? = b.fill? := rfl

/-- Other contents of the spaces that agree with the block's own on the elements the row of a command reads (R71). -/
structure Block.ReadsAgree (i : Instr) : Prop where
  pay : ∀ a, .payRead a ∈ b.accesses i → (b.withSpaces m c).readPay a = b.readPay a
  cov : ∀ k, .covRead k ∈ b.accesses i → (b.withSpaces m c).readCov k = b.readCov k

variable {b m c}

/-- Bytes read from PAY depend on their own addresses alone. -/
theorem Block.loadBytes_congr {d : Block P} {n : Nat} (h : ∀ a < n, d.readPay a = b.readPay a) :
    d.loadBytes n = b.loadBytes n :=
  List.map_congr_left fun a ha => h a (List.mem_range.1 ha)

/-- REVEAL's row lists the header, whether REVEAL faults or not (R71, R231). -/
theorem Block.covRead_mem_accesses_reveal {k : Nat} (hk : k < headerWidth b.cap) :
    .covRead k ∈ b.accesses .reveal := by
  by_cases hp : b.passes .reveal
  · rw [Block.accesses_reveal hp]
    exact List.mem_append_left _ (List.mem_map_of_mem (List.mem_range.2 (Nat.lt_add_right _ hk)))
  · rw [Block.accesses_reveal_of_not_passes hp]
    exact List.mem_map_of_mem (List.mem_range.2 hk)

/-- The header REVEAL reads is the same. -/
theorem Block.ReadsAgree.reveal_header (h : b.ReadsAgree m c .reveal) :
    (b.withSpaces m c).readLsbs 0 (headerWidth b.cap) = b.readLsbs 0 (headerWidth b.cap) :=
  Block.readLsbs_congr _ fun k _ hk => congrArg lsb (h.cov k (Block.covRead_mem_accesses_reveal (by omega)))

/-- The payload slots of a REVEAL that passes its test are the same. -/
theorem Block.ReadsAgree.reveal_payload (h : b.ReadsAgree m c .reveal) (hp : b.passes .reveal) {n : Nat}
    (hn : n = decodeHeader (b.readLsbs 0 (headerWidth b.cap))) :
    (b.withSpaces m c).readLsbs (headerWidth b.cap) (8 * n) = b.readLsbs (headerWidth b.cap) (8 * n) := by
  subst hn
  refine Block.readLsbs_congr _ fun k _ hk => congrArg lsb (h.cov k ?_)
  rw [Block.accesses_reveal hp]
  exact List.mem_append_left _ (List.mem_map_of_mem (List.mem_range.2 hk))

/-- The payload BYTES2BITS encodes is the same. -/
theorem Block.ReadsAgree.bytes2bits_payload (h : b.ReadsAgree m c .bytes2bits) :
    (b.withSpaces m c).loadBytes b.plen.toNat = b.loadBytes b.plen.toNat :=
  Block.loadBytes_congr fun a ha => h.pay a (List.mem_map_of_mem (List.mem_range.2 ha))

/-- The payload HIDE encodes is the same. -/
theorem Block.ReadsAgree.hide_payload (h : b.ReadsAgree m c .hide) (hp : b.passes .hide) :
    (b.withSpaces m c).loadBytes b.plen.toNat = b.loadBytes b.plen.toNat := by
  obtain ⟨f, -, -, hrow⟩ := Block.accesses_hide hp
  refine Block.loadBytes_congr fun a ha => h.pay a ?_
  rw [hrow]
  exact List.mem_append_left _ (List.mem_map_of_mem (List.mem_range.2 ha))

/-! ### A command that faults -/

/-- A command's tests read no element but REVEAL's header (R231). -/
theorem Block.ReadsAgree.passes_iff {i : Instr} (h : b.ReadsAgree m c i) :
    (b.withSpaces m c).passes i ↔ b.passes i := by
  cases i with
  | reveal => simp only [Block.passes, Block.withSpaces_cap, h.reveal_header]
  | _ => rfl

/-- A command that can raise one cause only raises that one. -/
theorem Block.command_of_mayRaise_singleton (rnd : Nat → Bit) {i : Instr} {e : Cause} (hp : ¬ b.passes i)
    (he : mayRaise i = [e]) : b.command rnd i = .next (b.raise e) := by
  obtain ⟨e', hmem, h⟩ := b.command_of_not_passes rnd hp
  rw [he, List.mem_singleton] at hmem
  rw [h, hmem]

/-- A command whose tests fail raises the same cause over the other spaces, and keeps them. -/
theorem Block.ReadsAgree.command_of_not_passes {i : Instr} (h : b.ReadsAgree m c i) (rnd : Nat → Bit)
    (hp : ¬ b.passes i) :
    (b.withSpaces m c).command rnd i = mapNext (Block.withSpaces · m c) (b.command rnd i) := by
  have hp' := h.passes_iff.not.2 hp
  cases i with
  | nop | eclr | bclr | bytes2bits | bits2bytes | bits2bytesl | bits2bytesd | hwidth | readall =>
    exact absurd trivial hp
  | bpush | bget | map | rdlsb | wrlsb | reveal =>
    rw [Block.command_of_mayRaise_singleton rnd hp rfl, Block.command_of_mayRaise_singleton rnd hp' rfl]; rfl
  | dechdr | enchdr =>
    simp only [Block.command, Block.cmdDechdr, Block.cmdEnchdr, apply_ite (mapNext _)]; rfl
  | validate =>
    simp only [Block.command, Block.cmdValidate, Block.withSpaces_cap, Block.withSpaces_plen, Block.withSpaces_hw,
      apply_ite (mapNext _)]
    cases capacityCheck b.plen.toNat b.cap b.hw.toNat with
    | none => rfl
    | some e => rfl
  | wrbits =>
    simp only [Block.command, Block.cmdWrbits, Block.withSpaces_fill?]
    cases hf : b.fill? with
    | none => rfl
    | some f =>
      have hlt : b.cap < b.bitbuf.length := Nat.not_le.1 fun hl => hp ⟨by simp [hf], hl⟩
      have hlt' : (b.withSpaces m c).cap < (b.withSpaces m c).bitbuf.length := hlt
      simp only [if_pos hlt, if_pos hlt']; rfl
  | hide =>
    simp only [Block.command, Block.cmdHide, Block.withSpaces_fill?, Block.withSpaces_cap, Block.withSpaces_plen]
    cases hf : b.fill? with
    | none => rfl
    | some f =>
      cases hc : capacityCheck b.plen.toNat b.cap (headerWidth b.cap) with
      | none => exact absurd ⟨by simp [hf], capacityCheck_eq_none.1 hc⟩ hp
      | some e => rfl

/-! ### A command that succeeds -/

/-- The effect on the registers and BITBUF is the same. -/
theorem Block.ReadsAgree.effect {i : Instr} (h : b.ReadsAgree m c i) (rnd : Nat → Bit) (hp : b.passes i) :
    (b.withSpaces m c).effect rnd i =
      (b.effect rnd i).withSpaces ((b.withSpaces m c).effect rnd i).pay ((b.withSpaces m c).effect rnd i).cov := by
  cases i with
  | nop | eclr | bclr | bpush | bget | hwidth | validate | enchdr | dechdr | map | wrlsb => rfl
  | bytes2bits =>
    simp only [Block.effect, Block.withSpaces_plen, h.bytes2bits_payload]; rfl
  | bits2bytes | bits2bytesl | bits2bytesd =>
    simp only [Block.effect, Block.decodedBy]
    rw [Block.storeBytes_frame, Block.storeBytes_frame b]; rfl
  | rdlsb =>
    have hread := h.cov b.idx.toNat (by rw [Block.accesses_rdlsb hp]; exact List.mem_cons_self)
    simp only [Block.effect, Block.withSpaces_idx, hread]; rfl
  | readall =>
    have hread : (b.withSpaces m c).readLsbs 0 b.cap = b.readLsbs 0 b.cap :=
      Block.readLsbs_congr _ fun k _ hk => congrArg lsb (h.cov k (List.mem_map_of_mem (List.mem_range.2 (by omega))))
    simp only [Block.effect, Block.withSpaces_cap, hread]; rfl
  | wrbits | hide =>
    simp only [Block.effect]
    rw [Block.writeStream_frame, Block.writeStream_frame b]; rfl
  | reveal =>
    simp only [Block.effect, Block.withSpaces_cap, h.reveal_header]
    rw [Block.storeBytes_frame, Block.storeBytes_frame b]; rfl

/-- The bytes the row writes are the same. -/
theorem Block.ReadsAgree.readPay_effect {i : Instr} (h : b.ReadsAgree m c i) (rnd : Nat → Bit) {a : Nat}
    (ha : .payWrite a ∈ b.accesses i) :
    ((b.withSpaces m c).effect rnd i).readPay a = (b.effect rnd i).readPay a := by
  have hp := Block.passes_of_payWrite ha
  have hdecoded (l : Option Nat) (hlt : a < min (availableBits b.bitbuf l / 8) (2 ^ P.capw)) :
      ((b.withSpaces m c).decodedBy l).readPay a = (b.decodedBy l).readPay a := by
    rw [Block.readPay_decodedBy, Block.readPay_decodedBy, Block.withSpaces_bitbuf, if_pos hlt, if_pos hlt]
  cases i with
  | nop | eclr | bclr | bpush | bget | hwidth | validate | enchdr | dechdr | map => cases ha
  | bits2bytes => exact hdecoded none (by simpa [Block.accesses] using ha)
  | bits2bytesl => exact hdecoded (some b.limit.toNat) (by simpa [Block.accesses] using ha)
  | bits2bytesd => exact hdecoded (some (8 * b.dlen.toNat)) (by simpa [b.accesses_bits2bytesd] using ha)
  | reveal =>
    have hlt : a < decodeHeader (b.readLsbs 0 (headerWidth b.cap)) := by
      simpa [Block.accesses_reveal hp] using ha
    rw [Block.readPay_effect_reveal, Block.readPay_effect_reveal, Block.withSpaces_cap, h.reveal_header, if_pos hlt,
      if_pos hlt, h.reveal_payload hp rfl]
  | bytes2bits | readall => simp [Block.accesses] at ha
  | rdlsb => simp [Block.accesses_rdlsb hp] at ha
  | wrlsb => simp [Block.accesses_wrlsb hp] at ha
  | wrbits => obtain ⟨f, -, -, hrow⟩ := Block.accesses_wrbits hp; simp [hrow] at ha
  | hide => obtain ⟨f, -, -, hrow⟩ := Block.accesses_hide hp; simp [hrow] at ha

/-- The samples the row writes are the same. -/
theorem Block.ReadsAgree.readCov_effect {i : Instr} (h : b.ReadsAgree m c i) (rnd : Nat → Bit) {k : Nat}
    (hk : .covWrite k ∈ b.accesses i) :
    ((b.withSpaces m c).effect rnd i).readCov k = (b.effect rnd i).readCov k := by
  have hp := Block.passes_of_covWrite hk
  cases i with
  | nop | eclr | bclr | bpush | bget | hwidth | validate | enchdr | dechdr | map => cases hk
  | bytes2bits | bits2bytes | bits2bytesl | bits2bytesd | readall => simp [Block.accesses] at hk
  | rdlsb => simp [Block.accesses_rdlsb hp] at hk
  | reveal => simp [Block.accesses_reveal hp] at hk
  | wrlsb =>
    have hread := h.cov b.idx.toNat (by rw [Block.accesses_wrlsb hp]; exact List.mem_cons_self)
    obtain rfl : k = b.idx.toNat := by simpa [Block.accesses_wrlsb hp] using hk
    simp only [Block.effect, Block.withSpaces_idx, Block.withSpaces_bit, Block.readCov_putSlot,
      Block.withSpaces_bilevel, hread]
  | wrbits =>
    obtain ⟨f, hf, hlen, hrow⟩ := Block.accesses_wrbits hp
    have hlt : k < slotsWritten f b.bitbuf.length b.cap := by simpa [hrow] using hk
    have hread := h.cov k (by simpa [hrow] using hlt)
    rw [b.readCov_effect_wrbits rnd hf hlen, (b.withSpaces m c).readCov_effect_wrbits rnd hf hlen]
    simp only [Block.withSpaces_bitbuf, Block.withSpaces_cap, Block.withSpaces_bilevel, hread]
  | hide =>
    obtain ⟨f, hf, hlen, hrow⟩ := Block.accesses_hide hp
    have hlt : k < slotsWritten f (headerWidth b.cap + 8 * b.plen.toNat) b.cap := by simpa [hrow] using hk
    have hread := h.cov k (by simpa [hrow] using hlt)
    rw [b.readCov_effect_hide rnd hf hlen, (b.withSpaces m c).readCov_effect_hide rnd hf hlen]
    simp only [Block.withSpaces_plen, Block.withSpaces_cap, Block.withSpaces_bilevel, hread, h.hide_payload hp]

/-! ### The command as a whole -/

/-- A command over the other spaces does the same, and leaves the same in the elements its row writes. -/
theorem Block.ReadsAgree.command {i : Instr} (h : b.ReadsAgree m c i) (rnd : Nat → Bit) {d : Block P}
    (hd : b.command rnd i = .next d) :
    ∃ m' c', (b.withSpaces m c).command rnd i = .next (d.withSpaces m' c') ∧
      (∀ a, .payWrite a ∈ b.accesses i → (d.withSpaces m' c').readPay a = d.readPay a) ∧
      ∀ k, .covWrite k ∈ b.accesses i → (d.withSpaces m' c').readCov k = d.readCov k := by
  by_cases hp : b.passes i
  · rw [b.command_of_passes rnd hp] at hd
    cases hd
    refine ⟨((b.withSpaces m c).effect rnd i).pay, ((b.withSpaces m c).effect rnd i).cov, ?_,
      fun _ => h.readPay_effect rnd, fun _ => h.readCov_effect rnd⟩
    rw [Block.command_of_passes _ rnd (h.passes_iff.2 hp), h.effect rnd hp]; rfl
  · refine ⟨m, c, ?_, fun _ ha => absurd (Block.passes_of_payWrite ha) hp,
      fun _ hk => absurd (Block.passes_of_covWrite hk) hp⟩
    rw [h.command_of_not_passes rnd hp, hd, mapNext_next]

end

/-- Settles O56: the machine's command is the block's, and the model's own fields do not depend on the spaces. -/
theorem commandsReadOnlyListedElements : Obligations.CommandsReadOnlyListedElements := by
  intro i s t m c h hpay hcov
  obtain ⟨d, hd, rfl⟩ := exec_next.1 h
  have hagree : s.toBlock.ReadsAgree m c i := ⟨hpay, hcov⟩
  obtain ⟨m', c', hd', hpay', hcov'⟩ := hagree.command _ hd
  exact ⟨m', c', exec_next.2 ⟨_, hd', rfl⟩, hpay', hcov'⟩

end Sys2Proof.Machine

/-! The command word (spec/30_encoding.md R100 to R104): the table of R101 read both ways, and the reserved words of R102. -/

namespace Sys2Proof.Machine

/-- Every row of the table is the one its own word finds (R101). -/
theorem decodeWord_word : ∀ r ∈ opcodeTable, decodeWord r.word = some r.instr := by decide

/-- A word decodes to a command exactly where a row of the table pairs them (R101). -/
theorem decodeWord_eq_some_iff {w : Byte} {i : Instr} :
    decodeWord w = some i ↔ ∃ r ∈ opcodeTable, r.word = w ∧ r.instr = i := by
  constructor
  · intro h
    obtain ⟨r, hr, rfl⟩ := Option.map_eq_some_iff.1 h
    exact ⟨r, List.mem_of_find?_eq_some hr, by simpa using List.find?_some hr, rfl⟩
  · rintro ⟨r, hr, rfl, rfl⟩
    exact decodeWord_word r hr

/-- Every row of the table holds its command's encoding (R101). -/
theorem word_eq_encodeWord : ∀ r ∈ opcodeTable, r.word = encodeWord r.instr := by decide

/-- A word that decodes to a command is that command's encoding (R101). -/
theorem encodeWord_of_decodeWord {w : Byte} {i : Instr} (h : decodeWord w = some i) : encodeWord i = w := by
  obtain ⟨r, hr, rfl, rfl⟩ := decodeWord_eq_some_iff.1 h
  exact (word_eq_encodeWord r hr).symm

/-- Decoding the encoding of a command gives it back, whatever bytes come after (R104). -/
theorem decode_encode_append (i : Instr) (rest : List Byte) : decode (encode i ++ rest) = .command i rest := by
  cases i <;> rfl

/-- Issuing a word that decodes to no command raises `IllegalCommand` and runs no command (R102, R227). -/
theorem issueCommand_of_reserved {P : Params} (run : Runner P) {w : Byte} (h : decodeWord w = none) (m : System P) :
    issueCommand run w m = .next { m with toBlock := m.toBlock.raise .illegalCommand } := by
  simp only [issueCommand, decode, h]

/-- The words with no row are the six ranges of R102. -/
theorem decodeWord_eq_none_iff (w : Byte) : decodeWord w = none ↔
    (0x05#8 ≤ w ∧ w ≤ 0x0F#8) ∨ (0x14#8 ≤ w ∧ w ≤ 0x1F#8) ∨ (0x24#8 ≤ w ∧ w ≤ 0x2F#8) ∨ (0x35#8 ≤ w ∧ w ≤ 0x3F#8) ∨
      (0x42#8 ≤ w ∧ w ≤ 0x4F#8) ∨ (0x50#8 ≤ w ∧ w ≤ 0xFF#8) := by
  revert w; decide

/-- There are 236 reserved words: 46 below 0x42, and every word from 0x42 upward (R102). -/
theorem length_filter_reserved :
    ((List.range 256).filter fun n => (decodeWord (BitVec.ofNat 8 n)).isNone).length = 236 := by
  have hlow : ((List.range' 0 66).filter fun n => (decodeWord (BitVec.ofNat 8 n)).isNone).length = 46 := by decide
  have hhigh : ((List.range' 66 190).filter fun n => (decodeWord (BitVec.ofNat 8 n)).isNone).length = 190 := by
    rw [List.filter_eq_self.2, List.length_range']
    intro n hn
    have hn := List.mem_range'_1.1 hn
    rw [Option.isNone_iff_eq_none, decodeWord_eq_none_iff]
    bv_omega
  rw [List.range_eq_range', ← List.range'_append_1 (m := 66) (n := 190), List.filter_append, List.length_append, hlow,
    hhigh]

/-- Settles O1: the listed pairs are the words and commands of the rows of the table. -/
theorem opcodeMapIsTheTableOfCommands : Obligations.OpcodeMapIsTheTableOfCommands := by
  intro w i
  have hrows : (w, i) ∈ opcodeTable.map (fun r => (r.word, r.instr)) ↔ ∃ r ∈ opcodeTable, r.word = w ∧ r.instr = i := by
    simp only [List.mem_map, Prod.mk.injEq]
  exact decodeWord_eq_some_iff.trans hrows.symm

/-- Settles O2: each command's word has its row, and each row holds its command's word. -/
theorem decodeAndEncodeAgree : Obligations.DecodeAndEncodeAgree :=
  ⟨fun i rest _ => decode_encode_append i rest, fun _ _ h => congrArg (fun v => [v]) (encodeWord_of_decodeWord h)⟩

/-- Settles O3: the six ranges by the table, their size by counting, and a reserved word raises code 5. -/
theorem reservedWordsRaiseIllegalCommand : Obligations.ReservedWordsRaiseIllegalCommand :=
  ⟨decodeWord_eq_none_iff, length_filter_reserved, fun _ _ _ hhost hw =>
    (step_txn hhost).trans (congrArg (mapNext State.mk) (issueCommand_of_reserved _ hw _))⟩

end Sys2Proof.Machine

/-! What a command does to one sample of the cover (spec/30_encoding.md R95). -/

namespace Sys2Proof.Machine

section
variable {P : Params}

/-- On a surface that is not bilevel, putting a bit in changes bit 0 alone (R95, R175). -/
theorem getLsbD_putBit_of_pos (v : BitVec P.sw) (x : Bit) {j : Nat} (hj : 1 ≤ j) :
    (putBit 0 v x).getLsbD j = v.getLsbD j := by
  have hbit : (1#P.sw).getLsbD j = false := by simp [BitVec.getLsbD_one]; omega
  simp only [putBit, if_true]
  split
  · simp [hbit]
  · by_cases hsw : j < P.sw
    · simp [hsw]; omega
    · simp [Nat.not_lt.1 hsw]

/-- On a bilevel surface, a sample with a bit put in is 0 or `MAXVAL` (R175). -/
theorem toNat_putBit_one (v : BitVec P.sw) (x : Bit) :
    (putBit 1 v x).toNat = 0 ∨ (putBit 1 v x).toNat = 2 ^ P.sw - 1 := by
  simp only [putBit, Params.maxval]
  rw [if_neg (by decide)]
  split
  · right
    rw [BitVec.toNat_ofNat, Nat.mod_eq_of_lt (Nat.sub_lt (Nat.two_pow_pos _) Nat.one_pos)]
  · left; rfl

/-- The whole effect of a command on one sample: it keeps it, or puts a bit into it (R95). -/
theorem Block.readCov_effect_cases (b : Block P) (rnd : Nat → Bit) {i : Instr} (hp : b.passes i) (k : Nat) :
    (b.effect rnd i).readCov k = b.readCov k ∨
      ∃ x, (b.effect rnd i).readCov k = putBit b.bilevel (b.readCov k) x := by
  cases i with
  | wrlsb =>
    by_cases hk : k = b.idx.toNat
    · subst hk; exact .inr ⟨b.bit, (b.readCov_putSlot _ _ _).trans (if_pos rfl)⟩
    · exact .inl ((b.readCov_putSlot _ _ _).trans (if_neg hk))
  | wrbits =>
    obtain ⟨f, hf, hlen, -⟩ := Block.accesses_wrbits hp
    rw [b.readCov_effect_wrbits rnd hf hlen]
    split
    · exact .inr ⟨_, rfl⟩
    · exact .inl rfl
  | hide =>
    obtain ⟨f, hf, hlen, -⟩ := Block.accesses_hide hp
    rw [b.readCov_effect_hide rnd hf hlen]
    split
    · exact .inr ⟨_, rfl⟩
    · exact .inl rfl
  | bits2bytes | bits2bytesl | bits2bytesd | reveal => exact .inl (b.storeBytes_readCov _ _ k)
  | nop | eclr | bclr | bpush | bget | bytes2bits | hwidth | validate | enchdr | dechdr | map | rdlsb | readall =>
    exact .inl rfl

/-- A command on one sample: it keeps it, or puts a bit into it (R95). -/
theorem readCov_exec_cases {i : Instr} {s t : State} (h : exec i s = .next t) (k : Nat) :
    t.readCov k = s.readCov k ∨ ∃ x, t.readCov k = putBit s.bilevel (s.readCov k) x := by
  rcases exec_cases h with ⟨c, -, rfl⟩ | ⟨hp, rfl⟩
  · exact .inl rfl
  · exact s.toBlock.readCov_effect_cases _ hp k

end

/-- Settles O58: a sample is kept or has a bit put in, and `putBit` keeps the upper bits or writes 0 or `MAXVAL`. -/
theorem upperBitsOfSamplesAreKept : Obligations.UpperBitsOfSamplesAreKept := by
  intro i s t h
  refine ⟨fun hmode k j hj => ?_, fun hmode k hne => ?_⟩
  · rcases readCov_exec_cases h k with hk | ⟨x, hk⟩
    · rw [hk]
    · rw [hk, hmode, getLsbD_putBit_of_pos _ _ hj]
  · rcases readCov_exec_cases h k with hk | ⟨x, hk⟩
    · exact absurd hk hne
    · rw [hk, hmode]
      exact toNat_putBit_one _ x

end Sys2Proof.Machine

/-! Transactions and directives (spec/30_encoding.md R105, R106): what a list of transactions does to the block, the
transactions each directive stands for, and a run over a directive. -/

namespace Sys2Proof.Machine

section
variable {P : Params}

/-- The transaction takes the block from `b` to `c` and touches none of the model's own fields. -/
def Block.Takes (b : Block P) (t : Txn P) (c : Block P) : Prop :=
  ∀ m : System P, performTxn System.command t { m with toBlock := b } = .next { m with toBlock := c }

/-- The transactions, taken in order, lead from the first block to the second one. -/
inductive Block.Moves : Block P → List (Txn P) → Block P → Prop
  | nil (b : Block P) : Moves b [] b
  | cons {b c d : Block P} {t : Txn P} {ts : List (Txn P)} : b.Takes t c → Moves c ts d → Moves b (t :: ts) d

/-- One list of transactions after another. -/
theorem Block.Moves.append {b c d : Block P} {ts us : List (Txn P)} (h : b.Moves ts c) (h' : c.Moves us d) :
    b.Moves (ts ++ us) d := by
  induction h with
  | nil => exact h'
  | cons ht _ ih => exact .cons ht (ih h')

/-- A list of one transaction. -/
theorem Block.Takes.moves {b c : Block P} {t : Txn P} (h : b.Takes t c) : b.Moves [t] c := .cons h (.nil c)

variable (b : Block P)

/-- `WR` is `writeReg` (R41). -/
theorem Block.takes_wr (v : RegValue P) : b.Takes (.wr v) (b.writeReg v) := fun _ => rfl

/-- A byte written at an address of PAY (R39). -/
theorem Block.takes_payWrite {a : Nat} (ha : a < 2 ^ P.capw) (v : Byte) :
    b.Takes (.payWrite (BitVec.ofNat P.capw a) v) (b.writePay a v) := by
  intro m
  rw [performTxn, BitVec.toNat_ofNat, Nat.mod_eq_of_lt ha]

/-- A sample written at a slot below `CAP`, which an index register can hold (R9, R40). -/
theorem Block.takes_covWrite {i : Nat} (hi : i < b.cap) (v : BitVec P.sw) :
    b.Takes (.covWrite (BitVec.ofNat P.capw i) v) (b.writeCov i v) := by
  intro m
  rw [performTxn, BitVec.toNat_ofNat, Nat.mod_eq_of_lt (hi.trans b.cap_lt)]
  exact if_pos hi

/-- A BPUSH that finds room in BITBUF appends `BIT` (R131). -/
theorem Block.takes_bpush (hp : b.passes .bpush) :
    b.Takes (.cmd (encodeWord .bpush)) { b with bitbuf := b.bitbuf ++ [b.bit] }.succeed := by
  intro m
  rw [performTxn, issueCommand_encodeWord, System.command_of_passes _ hp]
  rfl

/-- `bs` written to PAY from address `a` upward is `storeBytes` (R106). -/
theorem Block.moves_payWrites {a : Nat} {bs : Payload} (h : a + bs.length ≤ 2 ^ P.capw) :
    b.Moves ((bs.zipIdx a).map fun p => .payWrite (BitVec.ofNat P.capw p.2) p.1) (b.storeBytes a bs) := by
  induction bs generalizing b a with
  | nil => exact .nil b
  | cons v bs ih =>
    rw [List.length_cons] at h
    exact .cons (b.takes_payWrite (by omega) v) (ih _ (by omega))

/-- Samples written from slot `i` upward, all below `CAP`, are `writeSamples` (R106). -/
theorem Block.moves_covWrites {i : Nat} {vs : List (BitVec P.sw)} (h : i + vs.length ≤ b.cap) :
    b.Moves ((vs.zipIdx i).map fun p => .covWrite (BitVec.ofNat P.capw p.2) p.1) (b.writeSamples i vs) := by
  induction vs generalizing b i with
  | nil => exact .nil b
  | cons v vs ih =>
    rw [List.length_cons] at h
    exact .cons (b.takes_covWrite (by omega) v) (ih _ (by rw [Block.writeCov_cap]; omega))

/-- The block after `BIT` has been written as `x` and pushed (R131). -/
def Block.pushed (x : Bit) : Block P := { b with bit := x, bitbuf := b.bitbuf ++ [x] }.succeed

@[simp] theorem Block.pushed_bitbuf (x : Bit) : (b.pushed x).bitbuf = b.bitbuf ++ [x] := rfl
@[simp] theorem Block.pushed_pay (x : Bit) : (b.pushed x).pay = b.pay := rfl
@[simp] theorem Block.pushed_cov (x : Bit) : (b.pushed x).cov = b.cov := rfl

/-- Pushing a bit shows in `BIT`, `BLEN` and STATUS alone (R21). -/
theorem Block.readReg_pushed {r : Reg} (hr : r ∉ [Reg.bit, Reg.blen, Reg.status]) (x : Bit) :
    (b.pushed x).readReg r = b.readReg r := by
  simp only [List.mem_cons, List.not_mem_nil, or_false, not_or] at hr
  obtain ⟨hbit, hblen, hstatus⟩ := hr
  calc (b.pushed x).readReg r
      = { b with bit := x, bitbuf := b.bitbuf ++ [x] }.readReg r := Block.readReg_status_ne _ hstatus _
    _ = { b with bit := x }.readReg r := Block.readReg_bitbuf_ne { b with bit := x } hblen _
    _ = b.readReg r := b.readReg_bit_ne hbit x

/-- The two transactions of one bit of `PUSHBITS`, where BITBUF has room for it (R106). -/
theorem Block.moves_push (h : b.bitbuf.length + 1 < 2 ^ P.blw) (x : Bit) :
    b.Moves [.wr (.bit x), .cmd (encodeWord .bpush)] (b.pushed x) := by
  have hp : (b.writeReg (.bit x)).passes .bpush := show b.bitbuf.length ≠ 2 ^ P.blw - 1 by omega
  exact .cons (b.takes_wr _) (Block.takes_bpush _ hp).moves

/-- The transactions of `PUSHBITS` push its bits one after another, where BITBUF has room for them all (R106). -/
theorem Block.moves_pushBits {bs : BitSeq} (h : b.bitbuf.length + bs.length < 2 ^ P.blw) :
    b.Moves (b.expand (.pushBits bs)) (bs.foldl Block.pushed b) := by
  induction bs generalizing b with
  | nil => exact .nil b
  | cons x bs ih =>
    rw [List.length_cons] at h
    refine (b.moves_push (by omega) x).append (ih _ ?_)
    rw [Block.pushed_bitbuf, List.length_append, List.length_singleton]
    omega

/-- Pushing bits one after another appends them in order, and changes nothing but BITBUF, `BIT`, `BLEN` and STATUS. -/
theorem Block.foldl_pushed (bs : BitSeq) :
    (bs.foldl Block.pushed b).bitbuf = b.bitbuf ++ bs ∧ (bs.foldl Block.pushed b).pay = b.pay ∧
      (bs.foldl Block.pushed b).cov = b.cov ∧
      ∀ r : Reg, r ∉ [Reg.bit, Reg.blen, Reg.status] → (bs.foldl Block.pushed b).readReg r = b.readReg r := by
  induction bs generalizing b with
  | nil => exact ⟨(List.append_nil _).symm, rfl, rfl, fun _ _ => rfl⟩
  | cons x bs ih =>
    obtain ⟨hbuf, hpay, hcov, hreg⟩ := ih (b.pushed x)
    refine ⟨?_, hpay.trans (b.pushed_pay x), hcov.trans (b.pushed_cov x), fun r hr => (hreg r hr).trans (b.readReg_pushed hr x)⟩
    rw [List.foldl_cons, hbuf, Block.pushed_bitbuf, List.append_assoc, List.singleton_append]

/-- `PAYLOAD` stores its bytes from PAY address 0 and then writes their number to `PLEN` (R106). -/
theorem Block.moves_payload {bs : Payload} (h : bs.length < 2 ^ P.capw) :
    b.Moves (b.expand (.payload bs)) ((b.storeBytes 0 bs).writeReg (.plen (BitVec.ofNat P.capw bs.length))) :=
  (b.moves_payWrites (by omega)).append (Block.takes_wr _ _).moves

/-- `COVER` writes its samples from slot 0 upward (R106). -/
theorem Block.moves_cover {vs : List (BitVec P.sw)} (h : vs.length = b.cap) :
    b.Moves (b.expand (.cover vs)) (b.writeSamples 0 vs) :=
  b.moves_covWrites (by omega)

/-- `COVERALL v` stands for the same transactions as a `COVER` of `CAP` samples `v` (R106). -/
theorem Block.expand_coverAll (v : BitVec P.sw) :
    b.expand (.coverAll v) = b.expand (.cover (List.replicate b.cap v)) := by
  simp only [Block.expand]
  refine List.ext_getElem (by simp) fun k _ _ => ?_
  simp

/-- Writing samples changes the cover and nothing else. -/
theorem Block.writeSamples_frame (i : Nat) (vs : List (BitVec P.sw)) :
    b.writeSamples i vs = { b with cov := (b.writeSamples i vs).cov } := by
  induction vs generalizing b i with
  | nil => rfl
  | cons v vs ih => rw [Block.writeSamples, ih]; rfl

end

/-- A run over the lines of transactions does to the block what the transactions do. -/
theorem core_run_moves (s : State) {b c : Block Config.params} {ts : List (Txn Config.params)} (h : b.Moves ts c)
    (rest : List (Line Config.params)) :
    Sys2Proof.core.run ts.length { s with toBlock := b, host := ts.map .txn ++ rest } =
      .next { s with toBlock := c, host := rest } := by
  induction h with
  | nil => rfl
  | cons ht _ ih => exact (core_run_txn _ rfl (ht { s with host := _ })).trans ih

/-- A run over a directive: one step to replace it, then one for each of its transactions (R106; log 9). -/
theorem core_run_directive_moves {s : State} {d : Directive Config.params} {rest : List (Line Config.params)}
    {c : Block Config.params} {n : Nat} (h : s.host = .directive d :: rest) (hd : d.wellFormed s.cap = true)
    (hm : s.toBlock.Moves (s.toBlock.expand d) c) (hn : n = (s.toBlock.expand d).length) :
    Sys2Proof.core.run (n + 1) s = .next { s with toBlock := c, host := rest } := by
  subst hn
  exact (core_run_directive _ h hd).trans (core_run_moves s hm rest)

/-! ### The directives -/

/-- Settles O12: the bytes go to PAY by `storeBytes`, and `PLEN` holds their number, which fits it. -/
theorem payloadDirectiveLoadsThePayload : Obligations.PayloadDirectiveLoadsThePayload := by
  intro s bs rest h hlen
  refine ⟨(s.toBlock.storeBytes 0 bs).pay, BitVec.ofNat _ bs.length, ?_, ?_, fun k => ?_⟩
  · rw [core_run_directive_moves h (decide_eq_true hlen) (s.toBlock.moves_payload hlen) (by simp [Block.expand]),
      Block.storeBytes_frame]
    rfl
  · exact (BitVec.toNat_ofNat _ _).trans (Nat.mod_eq_of_lt hlen)
  · exact (s.toBlock.readPay_storeBytes 0 bs k).trans (by simp)

/-- Settles O13: each bit is written to `BIT` and pushed, and there is room for every one of them. -/
theorem pushBitsDirectiveAppends : Obligations.PushBitsDirectiveAppends := by
  intro s bs rest h hroom
  obtain ⟨hbuf, hpay, hcov, hreg⟩ := s.toBlock.foldl_pushed bs
  have hlen : 2 * bs.length = (s.toBlock.expand (.pushBits bs)).length := by simp [Block.expand, Nat.mul_comm]
  exact ⟨_, core_run_directive_moves h rfl (s.toBlock.moves_pushBits hroom) hlen, hbuf, rfl, hpay, hcov, hreg⟩

/-- A run over `COVER` with a sample for each slot: slot `k` holds sample `k`, and only the cover has changed (R106). -/
theorem core_run_cover {s : State} {d : Directive Config.params} {vs : List (BitVec Config.params.sw)}
    {rest : List (Line Config.params)} (h : s.host = .directive d :: rest) (hwf : d.wellFormed s.cap = true)
    (hexpand : s.toBlock.expand d = s.toBlock.expand (.cover vs)) (hlen : vs.length = s.cap) :
    ∃ m, Sys2Proof.core.run (s.cap + 1) s = .next { s with host := rest, cov := m } ∧
      ∀ k, { s with host := rest, cov := m }.readCov k = if k < s.cap then vs.getD k 0 else s.readCov k := by
  refine ⟨(s.toBlock.writeSamples 0 vs).cov, ?_, fun k => ?_⟩
  · have hn : s.cap = (s.toBlock.expand d).length := by rw [hexpand]; simp [Block.expand, hlen]
    rw [core_run_directive_moves h hwf (hexpand ▸ s.toBlock.moves_cover hlen) hn, Block.writeSamples_frame]
  · exact (s.toBlock.readCov_writeSamples 0 vs k).trans (by simp [hlen])

/-- Settles O15: `COVERALL` is the `COVER` that repeats its sample, and a `COVER` of another length is refused. -/
theorem coverDirectivesLoadTheCover : Obligations.CoverDirectivesLoadTheCover := by
  intro s vs v rest
  refine ⟨fun h hlen => core_run_cover h (beq_iff_eq.2 hlen) rfl hlen, fun h hlen => ?_, fun h => ?_⟩
  · refine (step_cons h).trans (congrArg (mapNext State.mk) (if_neg ?_))
    exact fun hwf => hlen (beq_iff_eq.1 hwf)
  · obtain ⟨m, hrun, hread⟩ := core_run_cover h rfl (s.toBlock.expand_coverAll v) List.length_replicate
    refine ⟨m, hrun, fun k => (hread k).trans ?_⟩
    split
    · next hk => exact List.getD_replicate _ hk
    · rfl

/-- `MODE.BILEVEL` as a number (R25). -/
theorem modeBilevel_toNat (m : BitVec 3) : (modeBilevel m).toNat = m.toNat / 4 := by
  revert m; decide

/-- Settles O14: three register writes for `CFG`, and for `FILL` and `BILEVEL` one of a MODE with one field replaced. -/
theorem configurationDirectives : Obligations.ConfigurationDirectives := by
  intro s rest w h c f x
  refine ⟨fun hhost => ?_, fun hhost => ?_, fun hhost => ?_⟩
  · have hmoves : s.toBlock.Moves (s.toBlock.expand (.cfg w h c))
        { s.toBlock with width := w, height := h, channels := c } :=
      .cons (Block.takes_wr _ _) (.cons (Block.takes_wr _ _) (Block.takes_wr _ _).moves)
    exact core_run_directive_moves hhost rfl hmoves rfl
  · refine ⟨_, core_run_directive_moves hhost rfl (Block.takes_wr _ _).moves rfl, ?_, ?_, ?_⟩
    · rw [← modeBilevel_toNat, modeBilevel_of, ← modeBilevel_toNat]; rfl
    · rw [← modeFill_toNat, modeFill_of]; cases f <;> rfl
    · exact (congrArg fillOf (modeFill_of _ _)).trans (fillOf_code f)
  · refine ⟨_, core_run_directive_moves hhost rfl (Block.takes_wr _ _).moves rfl, ?_, ?_⟩
    · rw [← modeFill_toNat, modeFill_of, ← modeFill_toNat]
    · rw [← modeBilevel_toNat, modeBilevel_of]

end Sys2Proof.Machine

/-! The codec and the stream port (spec/40_bitstream_codec.md): encoding and decoding undo each other, and what the
encoder, decoder and stream port commands leave. -/

namespace Sys2Proof.Machine

/-! ### Encoding and decoding -/

/-- `bitAt` gives the element a sequence has at `k` (R11). -/
theorem bitAt_eq_getElem {s : BitSeq} {k : Nat} (h : k < s.length) : bitAt s k = s[k] :=
  List.getD_eq_getElem s 0 h

/-- Decoding gives an encoded payload back wherever the decoder may use all its bits (R129). -/
theorem bitsToBytes_bytesToBits {p : Payload} {l : Option Nat} (h : availableBits (bytesToBits p) l = 8 * p.length) :
    bitsToBytes (bytesToBits p) l = p := by
  have hn : availableBits (bytesToBits p) l / 8 = p.length := by omega
  refine List.ext_getElem (by rw [bitsToBytes_length, hn]) fun k hk hkp => ?_
  rw [← List.getD_eq_getElem _ 0 hk, bitsToBytes_getD _ l (hkp.trans_eq hn.symm), ← List.getD_eq_getElem _ 0 hkp]
  exact byteFrom_eq fun m hm => bitAt_bytesToBits p hkp hm

/-- Encoding gives the whole groups of decoded bits back, and no bit of a partial last group (R129). -/
theorem bytesToBits_bitsToBytes (s : BitSeq) (l : Option Nat) :
    bytesToBits (bitsToBytes s l) = s.take (8 * (availableBits s l / 8)) := by
  have hle := availableBits_le s l
  have hlen : (bytesToBits (bitsToBytes s l)).length = 8 * (availableBits s l / 8) := by
    rw [bytesToBits_length, bitsToBytes_length]
  refine bitSeq_ext (by rw [hlen, List.length_take]; omega) fun k hk => ?_
  rw [hlen] at hk
  have hgroup : k / 8 < availableBits s l / 8 := by omega
  have hbit : k % 8 < 8 := Nat.mod_lt k (by decide)
  calc bitAt (bytesToBits (bitsToBytes s l)) k
      = bitAt (bytesToBits (bitsToBytes s l)) (8 * (k / 8) + k % 8) := by rw [Nat.div_add_mod]
    _ = (byteFrom s (k / 8)).extractLsb' (7 - k % 8) 1 := by
      rw [bitAt_bytesToBits _ (by rwa [bitsToBytes_length]) hbit, bitsToBytes_getD s l hgroup]
    _ = bitAt s k := by rw [extractLsb_byteFrom s _ hbit, Nat.div_add_mod]
    _ = bitAt (s.take (8 * (availableBits s l / 8))) k := (bitAt_take hk).symm

/-- Settles O27: each direction element by element. -/
theorem codecFunctionsAreInverse : Obligations.CodecFunctionsAreInverse := by
  refine ⟨fun p => ?_, fun p l hl => ?_, fun s => bytesToBits_bitsToBytes s none⟩
  · exact bitsToBytes_bytesToBits (bytesToBits_length p)
  · exact bitsToBytes_bytesToBits (by rw [availableBits, bytesToBits_length, Nat.min_eq_left hl])

/-! ### What the commands leave -/

/-- A command that takes no draws and whose tests pass has its whole effect on the block and none on the model's own
fields. -/
theorem exec_of_passes_of_not_drawing {i : Instr} {s : State} (h : s.toBlock.passes i) (hd : drawing i = false) :
    exec i s = .next { s with toBlock := (s.toBlock.effect (Config.draw s.draws) i).succeed } := by
  rw [exec_of_passes h, State.after_succeed, hd, if_neg Bool.false_ne_true]

/-- `BLEN` can count the bits of any payload whose length `PLEN` can hold (R8). -/
theorem eight_mul_toNat_lt_two_pow_blw {P : Params} (n : BitVec P.capw) : 8 * n.toNat < 2 ^ P.blw := by
  have hn := n.isLt
  have hblw := eight_mul_two_pow_capw_le P
  omega

/-- The bits of `n` bytes of PAY number `8*n` (R120). -/
theorem Block.bytesToBits_loadBytes_length {P : Params} (b : Block P) (n : Nat) :
    (bytesToBits (b.loadBytes n)).length = 8 * n := by
  rw [bytesToBits_length, Block.loadBytes_length]

/-- Bit `8*k + m` of the bits of `n` bytes of PAY is bit `7 - m` of the byte at address `k` (R120). -/
theorem Block.bytesToBits_loadBytes_getElem? {P : Params} (b : Block P) {n k m : Nat} (hk : k < n) (hm : m ≤ 7) :
    (bytesToBits (b.loadBytes n))[8 * k + m]? = some ((b.readPay k).extractLsb' (7 - m) 1) := by
  have hmem : 8 * k + m < (bytesToBits (b.loadBytes n)).length := by
    rw [Block.bytesToBits_loadBytes_length]; omega
  rw [List.getElem?_eq_getElem hmem, ← bitAt_eq_getElem, bitAt_bytesToBits _ (by rwa [Block.loadBytes_length])
    (Nat.lt_succ_of_le hm), Block.loadBytes_getD _ hk]

/-- Settles O24: BITBUF becomes the encoding of the bytes loaded from PAY. -/
theorem bytes2BitsMakesTheBits : Obligations.Bytes2BitsMakesTheBits := by
  refine ⟨rfl, fun s => ?_⟩
  have hlen := s.toBlock.bytesToBits_loadBytes_length s.plen.toNat
  have hfits := hlen.trans_lt (eight_mul_toNat_lt_two_pow_blw s.plen)
  exact ⟨bytesToBits (s.toBlock.loadBytes s.plen.toNat), exec_of_passes_of_not_drawing (i := .bytes2bits) trivial rfl,
    hlen, fun k m hk hm => s.toBlock.bytesToBits_loadBytes_getElem? hk hm,
    (Block.regNat_readReg_blen _ hfits).trans hlen⟩

/-- A command that leaves `decodedBy l` and STATUS delivers the bytes the limit allows, where `OLEN` can count them. -/
theorem decoderDelivers_of_decodedBy {i : Instr} {s : State} {l : Option Nat}
    (h : exec i s = .next
      { s with
        pay := (s.toBlock.decodedBy l).pay
        olen := (s.toBlock.decodedBy l).olen
        status := statusOf s.faultFlag 0 })
    (hlt : availableBits s.bitbuf l / 8 < 2 ^ Config.params.capw) :
    DecoderDelivers i s (availableBits s.bitbuf l / 8) := by
  have hread (k : Nat) : (s.toBlock.decodedBy l).readPay k =
      if k < availableBits s.bitbuf l / 8 then byteFrom s.bitbuf k else s.readPay k := by
    rw [Block.readPay_decodedBy, Nat.min_eq_left hlt.le]
  refine ⟨_, _, h, ?_, fun k hk => ?_, fun k hk => ?_⟩
  · rw [Block.decodedBy_of_lt _ hlt]
    exact (BitVec.toNat_ofNat _ _).trans (Nat.mod_eq_of_lt hlt)
  · exact (hread k).trans (if_neg (Nat.not_lt.2 hk))
  · exact (congrArg BitVec.toNat ((hread k).trans (if_pos hk))).trans (byteFrom_toNat _ _)

/-- A limit of `8*n` bits is a limit of `n` bytes (R127). -/
theorem availableBits_eight_mul_div (s : BitSeq) (n : Nat) :
    availableBits s (some (8 * n)) / 8 = min (s.length / 8) n := by
  rw [availableBits]; omega

/-- Settles O25: the three commands share one end and differ in their limit alone; that of BITS2BYTESD, `8*DLEN` bits,
always leaves a number of bytes `OLEN` can count. -/
theorem decoderCommandsDeliverBytes : Obligations.DecoderCommandsDeliverBytes := by
  refine ⟨⟨rfl, rfl, rfl⟩, fun s => ⟨fun h => ?_, fun h => ?_, ?_⟩⟩
  · exact decoderDelivers_of_decodedBy (l := none) (run_deliver s fun b => bitsToBytes b.bitbuf none) h
  · exact decoderDelivers_of_decodedBy (l := some s.limit.toNat)
      (run_deliver s fun b => bitsToBytes b.bitbuf (some b.limit.toNat)) h
  · rw [← availableBits_eight_mul_div]
    refine decoderDelivers_of_decodedBy (run_deliver s fun b => bitsToBytes b.bitbuf (some (8 * b.dlen.toNat))) ?_
    rw [availableBits_eight_mul_div]
    exact (Nat.min_le_right _ _).trans_lt s.dlen.isLt

/-- Settles O23: BCLR has no test; BPUSH and BGET raise where their one test fails, and have their effect where it
passes. -/
theorem streamPortCommands : Obligations.StreamPortCommands := by
  refine ⟨⟨rfl, rfl, rfl⟩, fun s => ⟨?_, fun h => ?_, fun h => ?_, fun h => ?_, fun h => ?_⟩⟩
  · exact ⟨_, exec_of_passes_of_not_drawing trivial rfl, rfl, Block.regNat_readReg_blen _ (Nat.two_pow_pos _)⟩
  · exact exec_of_raise (if_pos h)
  · exact exec_of_passes_of_not_drawing h rfl
  · exact exec_of_raise (if_pos h)
  · rw [← bitAt_eq_getElem h]
    exact exec_of_passes_of_not_drawing (i := .bget) h rfl

end Sys2Proof.Machine

/-! The header engine (spec/41_header_engine.md): the header width, the capacity check, the header, and what HWIDTH,
VALIDATE, ENCHDR and DECHDR leave. -/

namespace Sys2Proof.Machine

/-! ### The header width -/

/-- `2^H` reaches the capacity in bytes (R140). -/
theorem div_eight_le_two_pow_headerWidth (c : Nat) : c / 8 ≤ 2 ^ headerWidth c :=
  (headerWidth_le_iff c _).1 le_rfl

/-- A larger capacity needs no shorter header (R142). -/
theorem headerWidth_mono {c d : Nat} (h : c ≤ d) : headerWidth c ≤ headerWidth d :=
  (headerWidth_le_iff c _).2 ((Nat.div_le_div_right h).trans (div_eight_le_two_pow_headerWidth d))

/-- The capacities of each header width but 0 (R142): those whose bytes `2^h` reaches and `2^(h-1)` does not. -/
theorem headerWidth_eq_iff (c : Nat) {h : Nat} (hh : 1 ≤ h) :
    headerWidth c = h ↔ 8 * 2 ^ (h - 1) + 8 ≤ c ∧ c ≤ 8 * 2 ^ h + 7 := by
  have least : headerWidth c = h ↔ ¬ headerWidth c ≤ h - 1 ∧ headerWidth c ≤ h := by omega
  rw [least, headerWidth_le_iff, headerWidth_le_iff]
  omega

/-- Where the capacity in bytes is a power of two, the header width is its exponent. -/
theorem headerWidth_of_div_eight {c h : Nat} (hc : c / 8 = 2 ^ h) : headerWidth c = h := by
  have hle : 2 ^ h ≤ 2 ^ headerWidth c := hc.symm.trans_le (div_eight_le_two_pow_headerWidth c)
  exact le_antisymm ((headerWidth_le_iff c h).2 hc.le) ((Nat.pow_le_pow_iff_right (by decide)).1 hle)

/-- The capacity is largest where its three factors are (R147). -/
theorem Block.cap_le {P : Params} (b : Block P) : b.cap ≤ (2 ^ P.dimw - 1) ^ 2 * (2 ^ P.chw - 1) := by
  rw [Nat.pow_two]
  exact Nat.mul_le_mul (Nat.mul_le_mul (Nat.le_sub_one_of_lt b.width.isLt) (Nat.le_sub_one_of_lt b.height.isLt))
    (Nat.le_sub_one_of_lt b.channels.isLt)

/-- The header width of the largest capacity at the default parameters (R147). -/
theorem headerWidth_largest : headerWidth ((2 ^ 16 - 1) ^ 2 * 7) = 32 :=
  (headerWidth_eq_iff _ (by decide)).2 (by decide)

/-- Settles O28: the bound of 32 is the header width of the largest capacity, by monotonicity. -/
theorem headerWidthProperties : Obligations.HeaderWidthProperties :=
  ⟨fun _ _ => headerWidth_mono, fun c _ => headerWidth_eq_iff c, headerWidth_le_self, headerWidth_largest,
    fun b => (headerWidth_mono b.cap_le).trans_eq headerWidth_largest⟩

/-- Settles O29: `HW` holds the header width whole, and that is at most `h` exactly where `2^h` reaches the capacity in
bytes. -/
theorem hwidthComputesTheHeaderWidth : Obligations.HwidthComputesTheHeaderWidth := by
  refine ⟨rfl, fun s =>
    ⟨BitVec.ofNat _ (headerWidth s.cap), exec_of_passes_of_not_drawing (i := .hwidth) trivial rfl, ?_⟩⟩
  rw [s.toBlock.toNat_headerWidth]
  refine ⟨fun h => ?_, fun _ => ⟨div_eight_le_two_pow_headerWidth _, fun h => (headerWidth_le_iff _ h).2⟩⟩
  exact Nat.le_zero.1 ((headerWidth_le_iff _ 0).2 h)

/-! ### The capacity check -/

/-- The check reports the cover exactly where the first test of R144 fails. -/
theorem capacityCheck_eq_cover {len c h : Nat} :
    capacityCheck len c h = some .payloadTooLargeForCover ↔ c < 8 * len + h := by
  unfold capacityCheck
  split_ifs with hcover
  · exact iff_of_true rfl hcover
  · simpa using Nat.not_lt.1 hcover
  · simpa using Nat.not_lt.1 hcover

/-- The check reports the header exactly where the second test of R144 fails alone. -/
theorem capacityCheck_eq_header {len c h : Nat} :
    capacityCheck len c h = some .payloadTooLargeForHeader ↔ 8 * len + h ≤ c ∧ 2 ^ h ≤ len := by
  unfold capacityCheck
  split_ifs with hcover hheader
  · simpa using fun hfits => absurd hfits (Nat.not_le.2 hcover)
  · exact iff_of_true rfl ⟨Nat.not_lt.1 hcover, hheader⟩
  · simpa using fun _ => Nat.not_le.1 hheader

/-- Settles O31: both tests bound the length from above, and `H` is at most the capacity. -/
theorem largestPayloadThatPasses : Obligations.LargestPayloadThatPasses := by
  intro len c
  have hle := headerWidth_le_self c
  have hpos := Nat.two_pow_pos (headerWidth c)
  rw [capacityCheck_eq_none]
  omega

/-- With the capacity's own header width, `2^H` is at least the capacity in bytes, so the second test fails alone only
where the two are equal and the header fits in the bits past the last byte (R148). -/
theorem capacityCheck_headerWidth_eq_header (len c : Nat) :
    capacityCheck len c (headerWidth c) = some .payloadTooLargeForHeader ↔
      len = c / 8 ∧ len = 2 ^ headerWidth c ∧ headerWidth c ≤ c % 8 := by
  have hle := div_eight_le_two_pow_headerWidth c
  rw [capacityCheck_eq_header]
  omega

/-- The same by the exponent: the remainder of a division by 8 leaves eight of them (R148). -/
theorem capacityCheck_headerWidth_eq_header_iff_exists (len c : Nat) :
    capacityCheck len c (headerWidth c) = some .payloadTooLargeForHeader ↔
      ∃ h < 8, len = c / 8 ∧ len = 2 ^ h ∧ h ≤ c % 8 := by
  rw [capacityCheck_headerWidth_eq_header]
  constructor
  · rintro ⟨hdiv, hpow, hmod⟩
    exact ⟨headerWidth c, hmod.trans_lt (Nat.mod_lt c (by decide)), hdiv, hpow, hmod⟩
  · rintro ⟨h, -, hdiv, hpow, hmod⟩
    rw [headerWidth_of_div_eight (hdiv.symm.trans hpow)]
    exact ⟨hdiv, hpow, hmod⟩

/-- Settles O32: the 36 pairs are listed by the exponent, one range of capacities for each of the eight. -/
theorem headerTestFailsAloneForThirtySixPairs : Obligations.HeaderTestFailsAloneForThirtySixPairs := by
  refine fun len c => ⟨capacityCheck_headerWidth_eq_header len c, ?_⟩
  rw [capacityCheck_headerWidth_eq_header_iff_exists]
  constructor
  · rintro ⟨h, hlt, hdiv, hpow, hmod⟩
    interval_cases h <;> omega
  · rintro (h | h | h | h | h | h | h | h)
    exacts [⟨0, by omega⟩, ⟨1, by omega⟩, ⟨2, by omega⟩, ⟨3, by omega⟩, ⟨4, by omega⟩, ⟨5, by omega⟩, ⟨6, by omega⟩,
      ⟨7, by omega⟩]

/-! ### Building and parsing a header -/

/-- Element `j` of a header of `h` bits is bit `h-1-j` of the length (R150). -/
theorem encodeHeader_getElem? (len : Nat) {h j : Nat} (hj : j < h) :
    (encodeHeader len h)[j]? = some (BitVec.ofNat 1 (len / 2 ^ (h - 1 - j) % 2)) := by
  have hmem : j < (encodeHeader len h).length := by rwa [encodeHeader_length]
  rw [List.getElem?_eq_getElem hmem, ← bitAt_eq_getElem, bitAt_encodeHeader len hj]

/-- The last bit of a header is the length's parity; the bits before it are the header of half the length (R150). -/
theorem encodeHeader_succ (len h : Nat) :
    encodeHeader len (h + 1) = encodeHeader (len / 2) h ++ [BitVec.ofNat 1 (len % 2)] := by
  have hlast : len / 2 ^ (h + 1 - 1 - h) % 2 = len % 2 := by
    rw [Nat.add_sub_cancel, Nat.sub_self, Nat.pow_zero, Nat.div_one]
  rw [encodeHeader, encodeHeader, List.range_succ, List.map_append, List.map_singleton, hlast]
  refine congrArg (· ++ _) (List.map_congr_left fun j hj => ?_)
  have hexp : h + 1 - 1 - j = h - 1 - j + 1 := by have := List.mem_range.1 hj; omega
  rw [hexp, Nat.pow_succ', Nat.div_div_eq_div_mul]

/-- Parsing a header gives what its bits hold of the length (R152). -/
theorem decodeHeader_encodeHeader (len h : Nat) : decodeHeader (encodeHeader len h) = len % 2 ^ h := by
  induction h generalizing len with
  | zero => exact (Nat.mod_one len).symm
  | succ h ih =>
    rw [encodeHeader_succ, decodeHeader_concat, ih, BitVec.toNat_ofNat, Nat.pow_one, Nat.mod_mod, Nat.pow_succ',
      Nat.mod_mul, Nat.add_comm]

/-- Building undoes parsing (R154). -/
theorem encodeHeader_decodeHeader (s : BitSeq) : encodeHeader (decodeHeader s) s.length = s := by
  induction s using List.reverseRecOn with
  | nil => rfl
  | append_singleton s x ih =>
    have hx := x.isLt
    have hhalf : (2 * decodeHeader s + x.toNat) / 2 = decodeHeader s := by omega
    have hparity : (2 * decodeHeader s + x.toNat) % 2 = x.toNat := by omega
    rw [List.length_append, List.length_singleton, decodeHeader_concat, encodeHeader_succ, hhalf, hparity, ih,
      BitVec.ofNat_toNat, BitVec.setWidth_eq]

/-- Settles O33: each direction by induction on the header, its last bit first. -/
theorem headerFunctionsAreInverse : Obligations.HeaderFunctionsAreInverse :=
  ⟨fun len h => ⟨encodeHeader_length len h, fun _ => encodeHeader_getElem? len⟩,
    fun len h hlt => (decodeHeader_encodeHeader len h).trans (Nat.mod_eq_of_lt hlt),
    fun s => ⟨encodeHeader_decodeHeader s, decodeHeader_lt s⟩⟩

/-! ### The commands of the header engine -/

/-- VALIDATE with a legal `HW` raises what the check reports (R145). -/
theorem exec_validate_of_check {s : State} {c : Cause} (hcfg : ¬ Config.params.capw < s.hw.toNat)
    (hc : capacityCheck s.plen.toNat s.cap s.hw.toNat = some c) : exec .validate s = .next (s.raised c) := by
  refine exec_of_raise ((if_neg hcfg).trans ?_)
  rw [hc]

/-- Settles O30: a test fails and its cause is raised, or all pass. -/
theorem validateTestsInOrder : Obligations.ValidateTestsInOrder := by
  refine ⟨rfl, fun s => ?_⟩
  split_ifs with hcfg hcover hheader
  · exact exec_of_raise (if_pos hcfg)
  · exact exec_validate_of_check hcfg (capacityCheck_eq_cover.2 hcover)
  · exact exec_validate_of_check hcfg (capacityCheck_eq_header.2 ⟨Nat.not_lt.1 hcover, hheader⟩)
  · exact exec_of_passes_of_not_drawing (i := .validate)
      ⟨Nat.not_lt.1 hcfg, Nat.not_lt.1 hcover, Nat.not_le.1 hheader⟩ rfl

/-- Settles O34: each test in turn fails where those before it passed; where all pass, the header is that of `PLEN`. -/
theorem enchdrPrependsTheHeader : Obligations.EnchdrPrependsTheHeader := by
  refine ⟨rfl, fun s => ⟨fun hcfg => ?_, fun hcfg hlen => ?_, fun hcfg hlen hroom => ?_, fun hcfg hlen hroom => ?_⟩⟩
  · exact exec_of_raise (if_pos hcfg)
  · exact exec_of_raise ((if_neg (Nat.not_lt.2 hcfg)).trans (if_pos hlen))
  · exact exec_of_raise
      ((if_neg (Nat.not_lt.2 hcfg)).trans ((if_neg (Nat.not_le.2 hlen)).trans (if_pos hroom)))
  · exact ⟨encodeHeader s.plen.toNat s.hw.toNat,
      exec_of_passes_of_not_drawing (i := .enchdr) ⟨hcfg, hlen, hroom⟩ rfl, encodeHeader_length _ _,
      fun _ => encodeHeader_getElem? _⟩

/-- The value of the first `n` bits of a sequence that has them, most significant bit first (R152). -/
theorem decodeHeader_take {s : BitSeq} {n : Nat} (hn : n ≤ s.length) :
    decodeHeader (s.take n) = ((List.range n).map fun j => (bitAt s j).toNat * 2 ^ (n - 1 - j)).sum := by
  rw [decodeHeader_eq_sum, List.length_take_of_le hn]
  refine congrArg List.sum (List.map_congr_left fun j hj => ?_)
  rw [bitAt_take (List.mem_range.1 hj)]

/-- Settles O35: each test in turn fails where the one before it passed; where both pass, `DLEN` holds the value of `HW`
bits whole, since `HW` is at most `CAPW`. -/
theorem dechdrTakesTheHeader : Obligations.DechdrTakesTheHeader := by
  refine ⟨rfl, fun s => ⟨fun hcfg => ?_, fun hcfg hshort => ?_, fun hcfg hlen => ?_⟩⟩
  · exact exec_of_raise (if_pos hcfg)
  · exact exec_of_raise ((if_neg (Nat.not_lt.2 hcfg)).trans (if_pos hshort))
  · have hfits : decodeHeader (s.bitbuf.take s.hw.toNat) < 2 ^ Config.params.capw :=
      calc decodeHeader (s.bitbuf.take s.hw.toNat)
          < 2 ^ (s.bitbuf.take s.hw.toNat).length := decodeHeader_lt _
        _ ≤ 2 ^ Config.params.capw := by
          rw [List.length_take_of_le hlen]; exact Nat.pow_le_pow_right (by decide) hcfg
    refine ⟨BitVec.ofNat _ (decodeHeader (s.bitbuf.take s.hw.toNat)),
      exec_of_passes_of_not_drawing (i := .dechdr) ⟨hcfg, hlen⟩ rfl, ?_⟩
    rw [BitVec.toNat_ofNat, Nat.mod_eq_of_lt hfits, decodeHeader_take hlen]

end Sys2Proof.Machine

/-! The channel-bit mapper (spec/42_channel_mapper.md): slots and pixels, one bit in one sample, and what MAP, RDLSB,
WRLSB, READALL and WRBITS leave. -/

namespace Sys2Proof.Machine

/-! ### Slots and pixels -/

/-- A slot below the capacity lies in a column, a row and a channel of the cover (R171). -/
theorem slotToPixel_lt {w h c i : Nat} (hi : i < w * h * c) :
    (slotToPixel w c i).x < w ∧ (slotToPixel w c i).y < h ∧ (slotToPixel w c i).c < c := by
  have hc : 0 < c := Nat.pos_of_lt_mul_left hi
  have hpixel : i / c < h * w := (Nat.div_lt_iff_lt_mul hc).2 (Nat.mul_comm w h ▸ hi)
  have hw : 0 < w := Nat.pos_of_lt_mul_left hpixel
  exact ⟨Nat.mod_lt _ hw, (Nat.div_lt_iff_lt_mul hw).2 hpixel, Nat.mod_lt _ hc⟩

/-- The formula of R171 gives the slot back. -/
theorem pixelToSlot_slotToPixel_self (w c i : Nat) : pixelToSlot w c (slotToPixel w c i) = i :=
  (pixelToSlot_slotToPixel w c i _).trans (Nat.div_add_mod' i c)

/-- Counting in blocks of `m`: element `r` of block `q` is in block `q`, at place `r`. -/
theorem mul_add_div_and_mod {q m r : Nat} (hr : r < m) : (q * m + r) / m = q ∧ (q * m + r) % m = r :=
  (Nat.div_mod_unique (Nat.zero_lt_of_lt hr)).2 ⟨by ring, hr⟩

/-- `slot_to_pixel` gives the triple back (R171). -/
theorem slotToPixel_pixelToSlot {w c : Nat} {p : Position} (hx : p.x < w) (hk : p.c < c) :
    slotToPixel w c (pixelToSlot w c p) = p := by
  obtain ⟨hpixel, hchannel⟩ := mul_add_div_and_mod (q := p.y * w + p.x) hk
  obtain ⟨hrow, hcolumn⟩ := mul_add_div_and_mod (q := p.y) hx
  simp only [slotToPixel, pixelToSlot, hpixel, hchannel, hrow, hcolumn]

/-- A triple in range has a slot below the capacity (R171). -/
theorem pixelToSlot_lt {w h c : Nat} {p : Position} (hx : p.x < w) (hy : p.y < h) (hk : p.c < c) :
    pixelToSlot w c p < w * h * c := by
  have hpixel : p.y * w + p.x < h * w :=
    (Nat.div_lt_iff_lt_mul (Nat.zero_lt_of_lt hx)).1 ((mul_add_div_and_mod hx).1.trans_lt hy)
  rw [Nat.mul_comm w h]
  exact (Nat.div_lt_iff_lt_mul (Nat.zero_lt_of_lt hk)).1 ((mul_add_div_and_mod hk).1.trans_lt hpixel)

/-- Settles O36: quotients and remainders by the channels and by the width, and the formula that puts them together. -/
theorem slotsAndPixelsAreInBijection : Obligations.SlotsAndPixelsAreInBijection := by
  refine ⟨fun w h c i hi => ?_, fun w h c x y k hx hy hk => ?_⟩
  · obtain ⟨hx, hy, hk⟩ := slotToPixel_lt hi
    exact ⟨hx, hy, hk, pixelToSlot_slotToPixel_self w c i⟩
  · exact ⟨pixelToSlot_lt (p := ⟨x, y, k⟩) hx hy hk, slotToPixel_pixelToSlot (p := ⟨x, y, k⟩) hx hk⟩

/-! ### One bit in one sample -/

/-- The LSB as a number (R174). -/
theorem lsb_toNat {w : Nat} (v : BitVec w) : (lsb v).toNat = v.toNat % 2 := BitVec.toNat_setWidth 1 v

section
variable {P : Params}

/-- Off a bilevel surface, putting a bit in keeps the sample's number but for its last binary digit (R175). -/
theorem toNat_putBit_div_two (v : BitVec P.sw) (x : Bit) : (putBit 0 v x).toNat / 2 = v.toNat / 2 := by
  have hupper : putBit 0 v x >>> 1 = v >>> 1 := by
    refine BitVec.eq_of_getLsbD_eq fun j _ => ?_
    rw [BitVec.getLsbD_ushiftRight, BitVec.getLsbD_ushiftRight]
    exact getLsbD_putBit_of_pos v x (Nat.le_add_right 1 j)
  simpa [Nat.shiftRight_eq_div_pow] using congrArg BitVec.toNat hupper

/-- The last binary digit of a sample with a bit put in is that bit (R175). -/
theorem toNat_putBit_mod_two (m : Bit) (v : BitVec P.sw) (x : Bit) : (putBit m v x).toNat % 2 = x.toNat := by
  rw [← lsb_toNat, lsb_putBit]

/-- Off a bilevel surface, putting in the bit that is there changes nothing (R175). -/
theorem putBit_lsb (v : BitVec P.sw) : putBit 0 v (lsb v) = v := by
  have hupper := toNat_putBit_div_two v (lsb v)
  have hlast := toNat_putBit_mod_two 0 v (lsb v)
  rw [lsb_toNat] at hlast
  exact BitVec.eq_of_toNat_eq (by omega)

/-- On a bilevel surface a sample with 1 put in is `MAXVAL`, with 0 put in it is 0 (R175). -/
theorem toNat_putBit_bilevel (v : BitVec P.sw) (x : Bit) :
    (putBit 1 v x).toNat = if x = 1 then 2 ^ P.sw - 1 else 0 := by
  have hbilevel : putBit 1 v x = if x = 1 then BitVec.ofNat P.sw P.maxval else 0 := if_neg (by decide)
  rw [hbilevel]
  split
  · exact (BitVec.toNat_ofNat _ _).trans (Nat.mod_eq_of_lt (Nat.sub_lt (Nat.two_pow_pos _) Nat.one_pos))
  · exact BitVec.toNat_zero

end

/-- Settles O38: 0 and `MAXVAL` are what a bilevel surface holds for the bits 0 and 1, so their LSBs are those bits; off
one the bits above bit 0 are kept, which leaves two numbers for the sample. -/
theorem putBitAndLsb : Obligations.PutBitAndLsb := by
  intro P m v x
  refine ⟨⟨lsb_toNat v, lsb_putBit 1 v 0, lsb_putBit 1 v 1⟩, lsb_putBit m v x, ?_, ?_⟩
  · rintro rfl
    have hupper := toNat_putBit_div_two v x
    exact ⟨fun _ => getLsbD_putBit_of_pos v x, putBit_lsb v, by omega, by omega⟩
  · rintro rfl
    exact toNat_putBit_bilevel v x

/-! ### The commands on one slot -/

/-- A register as wide as a dimension holds a coordinate below that dimension whole (R22, R23, R33). -/
theorem toNat_ofNat_of_lt_toNat {w n : Nat} {dim : BitVec w} (h : n < dim.toNat) : (BitVec.ofNat w n).toNat = n :=
  (BitVec.toNat_ofNat n w).trans (Nat.mod_eq_of_lt (h.trans dim.isLt))

/-- MAP where its test passes: the triple of slot `IDX`, in the registers (R172). -/
theorem exec_map_of_lt {s : State} (h : s.idx.toNat < s.cap) :
    exec .map s = .next
      { s with
        px := BitVec.ofNat _ (slotToPixel s.width.toNat s.channels.toNat s.idx.toNat).x
        py := BitVec.ofNat _ (slotToPixel s.width.toNat s.channels.toNat s.idx.toNat).y
        pch := BitVec.ofNat _ (slotToPixel s.width.toNat s.channels.toNat s.idx.toNat).c
        status := statusOf s.faultFlag 0 } :=
  exec_of_passes_of_not_drawing (i := .map) h rfl

/-- Settles O37: the slot is below the capacity, so its triple is in range and fits the registers. -/
theorem mapLocatesTheSlot : Obligations.MapLocatesTheSlot := by
  refine ⟨rfl, fun s => ⟨fun hpast => exec_of_raise (if_pos hpast), fun hidx => ?_⟩⟩
  obtain ⟨hx, hy, hc⟩ := slotToPixel_lt hidx
  refine ⟨_, _, _, exec_map_of_lt hidx, ?_⟩
  rw [toNat_ofNat_of_lt_toNat hx, toNat_ofNat_of_lt_toNat hy, toNat_ofNat_of_lt_toNat hc]
  exact ⟨hx, hy, hc, pixelToSlot_slotToPixel_self _ _ _⟩

/-- Settles O39: one test, and the LSB as a number. -/
theorem rdlsbReadsOneSlot : Obligations.RdlsbReadsOneSlot := by
  refine ⟨rfl, fun s => ⟨fun hpast => exec_of_raise (if_pos hpast), fun hidx => ?_⟩⟩
  exact ⟨_, exec_of_passes_of_not_drawing (i := .rdlsb) hidx rfl, lsb_toNat _⟩

/-- Settles O40: one test, and one slot written. -/
theorem wrlsbWritesOneSlot : Obligations.WrlsbWritesOneSlot := by
  refine ⟨rfl, fun s => ⟨fun hpast => exec_of_raise (if_pos hpast), fun hidx => ?_⟩⟩
  refine ⟨_, exec_of_passes_of_not_drawing (i := .wrlsb) hidx rfl, fun k => ?_⟩
  refine (s.toBlock.readCov_putSlot s.idx.toNat s.bit k).trans ?_
  split
  · next hk => rw [hk]
  · rfl

/-! ### READALL -/

/-- Element `k` of a run of LSBs from slot 0 is the LSB of slot `k` (R178). -/
theorem Block.readLsbs_zero_getElem? {P : Params} (b : Block P) {n k : Nat} (h : k < n) :
    (b.readLsbs 0 n)[k]? = some (lsb (b.readCov k)) := by
  have hk : k < (b.readLsbs 0 n).length := by rwa [Block.readLsbs_length]
  rw [List.getElem?_eq_getElem hk, ← bitAt_eq_getElem, b.bitAt_readLsbs 0 h, Nat.zero_add]

/-- Where the first slots hold the bits of a sequence, a run of LSBs from slot 0 begins with that sequence (R183). -/
theorem Block.readLsbs_zero_take {P : Params} (b : Block P) {bits : BitSeq} {n : Nat} (hn : bits.length ≤ n)
    (h : ∀ k < bits.length, lsb (b.readCov k) = bitAt bits k) : (b.readLsbs 0 n).take bits.length = bits := by
  have hlen : ((b.readLsbs 0 n).take bits.length).length = bits.length :=
    List.length_take_of_le (hn.trans_eq (b.readLsbs_length 0 n).symm)
  refine bitSeq_ext hlen fun k hk => ?_
  rw [hlen] at hk
  rw [bitAt_take hk, b.bitAt_readLsbs 0 (hk.trans_le hn), Nat.zero_add, h k hk]

/-- READALL has no test (R178). -/
theorem exec_readall (s : State) :
    exec .readall s =
      .next { s with bitbuf := s.toBlock.readLsbs 0 s.cap, status := statusOf s.faultFlag 0 } :=
  exec_of_passes_of_not_drawing trivial rfl

/-- Settles O41: BITBUF is the run of the LSBs of all slots. -/
theorem readallReadsEverySlot : Obligations.ReadallReadsEverySlot :=
  ⟨rfl, fun s => ⟨_, exec_readall s, s.toBlock.readLsbs_length 0 s.cap, fun _ => s.toBlock.readLsbs_zero_getElem?⟩⟩

/-! ### WRBITS -/

/-- The cover after a stream that fits it, past the stream: what the filler mode says (R181, R182). -/
theorem tailFilled_of_writeStream {s t : State} {f : Fill} {rnd : Nat → Bit} {bits : BitSeq}
    (hf : s.fill? = some f) (hl : bits.length ≤ s.cap)
    (ht : ∀ k, t.readCov k = (s.toBlock.writeStream (fillerOf rnd f) bits).readCov k) :
    TailFilled s t bits.length where
  no_filler hmode k hk := by
    obtain rfl : f = .none := Option.some.inj (hf.symm.trans (s.toBlock.fill?_eq_no_filler.2 hmode))
    exact (ht k).trans (s.toBlock.readCov_writeStream_none bits hk)
  zeroes hmode k hk hcap := by
    obtain rfl : f = .zeroes := Option.some.inj (hf.symm.trans (s.toBlock.fill?_eq_zeroes.2 hmode))
    exact (ht k).trans (s.toBlock.readCov_writeStream_some _ bits hk hcap)
  random hmode k hk hcap := by
    obtain rfl : f = .random := Option.some.inj (hf.symm.trans (s.toBlock.fill?_eq_random.2 hmode))
    exact ⟨_, (ht k).trans (s.toBlock.readCov_writeStream_some rnd bits hk hcap)⟩
  past_cover k hcap := (ht k).trans (s.toBlock.readCov_writeStream_of_cap_le _ bits hl hcap)

/-- A WRBITS whose tests pass: only the cover, STATUS and the model's counter change, and the cover holds BITBUF and the
tail (R180). -/
theorem exec_wrbits_of_passes {s : State} (hp : s.toBlock.passes .wrbits) :
    ∃ m n, exec .wrbits s = .next { s with cov := m, status := statusOf s.faultFlag 0, draws := n } ∧
      (∀ k, k < s.bitbuf.length →
        { s with cov := m }.readCov k = putBit s.bilevel (s.readCov k) (bitAt s.bitbuf k)) ∧
      TailFilled s { s with cov := m } s.bitbuf.length := by
  obtain ⟨hfill, hlen⟩ := hp
  obtain ⟨f, hf⟩ := Option.ne_none_iff_exists'.1 hfill
  exact ⟨_, _, exec_wrbits_of_fill hf hlen, fun _ => s.toBlock.readCov_writeStream_of_lt _ s.bitbuf,
    tailFilled_of_writeStream (rnd := Config.draw s.draws) hf hlen fun _ => rfl⟩

/-- Settles O42: the reserved filler mode is the one `fill?` has no mode for; then the length; then the cover. -/
theorem wrbitsWritesTheStreamAndTheTail : Obligations.WrbitsWritesTheStreamAndTheTail := by
  refine ⟨rfl, fun s => ⟨fun hreserved => ?_, fun hmode hlong => ?_, fun hmode hlen => ?_⟩⟩
  · refine exec_of_raise ?_
    simp only [Block.command, Block.cmdWrbits, s.toBlock.fill?_eq_none.2 hreserved]
  · obtain ⟨f, hf⟩ := Option.ne_none_iff_exists'.1 (s.toBlock.fill?_eq_none.not.2 hmode)
    refine exec_of_raise ?_
    simp only [Block.command, Block.cmdWrbits, hf, if_pos hlong]
  · exact exec_wrbits_of_passes ⟨s.toBlock.fill?_eq_none.not.2 hmode, hlen⟩

/-- A command that ends with `ERR` 0 has passed its tests (R36, R226). -/
theorem passes_of_exec_ok {i : Instr} {s t : State} (h : exec i s = .next t) (hok : t.ok) : s.toBlock.passes i := by
  rcases exec_cases h with ⟨c, -, rfl⟩ | ⟨hp, -⟩
  · exact absurd ((Block.raise_err _ c).symm.trans hok) c.code_ne_zero
  · exact hp

/-- Settles O43: READALL's bits are the LSBs of the cover WRBITS left, and the LSB of a sample with a bit put in is that
bit. -/
theorem readallReadsBackWrbits : Obligations.ReadallReadsBackWrbits := by
  intro s t h hok
  have hp := passes_of_exec_ok h hok
  have hlen : s.bitbuf.length ≤ s.cap := hp.2
  obtain ⟨m, n, hexec, hstream, htail⟩ := exec_wrbits_of_passes hp
  obtain rfl : { s with cov := m, status := statusOf s.faultFlag 0, draws := n } = t :=
    Host.Outcome.next.inj (hexec.symm.trans h)
  refine ⟨_, exec_readall _, ?_, Block.readLsbs_length _ 0 s.cap, fun hmode k hk hcap => ?_,
    fun hmode k hk hcap => ?_⟩
  · exact Block.readLsbs_zero_take _ hlen fun k hk => (congrArg lsb (hstream k hk)).trans (lsb_putBit _ _ _)
  · refine (Block.readLsbs_zero_getElem? _ hcap).trans (congrArg some ?_)
    exact (congrArg lsb (htail.zeroes hmode k hk hcap)).trans (lsb_putBit _ _ 0)
  · refine (Block.readLsbs_zero_getElem? _ hcap).trans (congrArg some ?_)
    exact congrArg lsb (htail.no_filler hmode k hk)

end Sys2Proof.Machine

/-! HIDE and REVEAL (spec/43_hide_reveal.md): what each leaves, the command sequences they stand for, and the round trip
of a payload through the cover. -/

namespace Sys2Proof.Machine

/-! ### Runs of LSBs -/

section
variable {P : Params} (b : Block P)

/-- A run of LSBs is two runs, one after the other (R178). -/
theorem Block.readLsbs_append (i m n : Nat) : b.readLsbs i (m + n) = b.readLsbs i m ++ b.readLsbs (i + m) n := by
  rw [Block.readLsbs, ← List.range'_append_1, List.map_append]; rfl

/-- The first `m` LSBs of a run are the run of its first `m` slots. -/
theorem Block.readLsbs_take (i : Nat) {m n : Nat} (h : m ≤ n) : (b.readLsbs i n).take m = b.readLsbs i m := by
  obtain ⟨d, rfl⟩ := Nat.exists_eq_add_of_le h
  rw [b.readLsbs_append, List.take_left' (b.readLsbs_length i m)]

/-- The LSBs of a run after its first `m` are the run of the slots after its first `m`. -/
theorem Block.readLsbs_drop (i : Nat) {m n : Nat} (h : m ≤ n) :
    (b.readLsbs i n).drop m = b.readLsbs (i + m) (n - m) := by
  obtain ⟨d, rfl⟩ := Nat.exists_eq_add_of_le h
  rw [b.readLsbs_append, List.drop_left' (b.readLsbs_length i m), Nat.add_sub_cancel_left]

/-- The length REVEAL reads, as the weighted sum of the header's LSBs (R152, R205). -/
theorem Block.decodeHeader_readLsbs (h : Nat) :
    decodeHeader (b.readLsbs 0 h) = ((List.range h).map fun j => (lsb (b.readCov j)).toNat * 2 ^ (h - 1 - j)).sum := by
  rw [decodeHeader_eq_sum, b.readLsbs_length]
  refine congrArg List.sum (List.map_congr_left fun j hj => ?_)
  rw [b.bitAt_readLsbs 0 (List.mem_range.1 hj), Nat.zero_add]

/-- `DLEN` and `OLEN` hold the length of any header whole, since the header width is at most `CAPW` (R9, R30, R31). -/
theorem Block.toNat_decodeHeader_readLsbs :
    (BitVec.ofNat P.capw (decodeHeader (b.readLsbs 0 (headerWidth b.cap)))).toNat =
      decodeHeader (b.readLsbs 0 (headerWidth b.cap)) := by
  have hlt := decodeHeader_lt (b.readLsbs 0 (headerWidth b.cap))
  rw [Block.readLsbs_length] at hlt
  rw [BitVec.toNat_ofNat, Nat.mod_eq_of_lt (hlt.trans_le (Nat.pow_le_pow_right (by decide) b.headerWidth_cap_le))]

/-- A decoder limited to bits that are there uses those bits alone (R124). -/
theorem bitsToBytes_some_of_le {s : BitSeq} {n : Nat} (h : n ≤ s.length) :
    bitsToBytes s (some n) = bitsToBytes (s.take n) (some n) := by
  have havail : availableBits (s.take n) (some n) = availableBits s (some n) := by
    simp only [availableBits, List.length_take]; omega
  rw [bitsToBytes, bitsToBytes, havail]
  refine List.map_congr_left fun k hk => byteFrom_congr fun m hm => (bitAt_take ?_).symm
  have hk := List.mem_range.1 hk
  rw [availableBits] at hk
  omega

/-! ### A cover that carries a payload -/

/-- The block's cover has room for the stream of `p`, whose length its header can hold, and the LSBs of its first slots
are that stream (R90, R200). -/
structure Block.Carries (p : Payload) : Prop where
  fits : headerWidth b.cap + 8 * p.length ≤ b.cap
  short : p.length < 2 ^ headerWidth b.cap
  stream : b.readLsbs 0 (headerWidth b.cap + 8 * p.length) = streamOf (headerWidth b.cap) p

/-- The block after a REVEAL that delivered `p` (R205). -/
def Block.revealed (p : Payload) : Block P :=
  { b.storeBytes 0 p with
    hw := BitVec.ofNat P.hww (headerWidth b.cap)
    dlen := BitVec.ofNat P.capw p.length
    olen := BitVec.ofNat P.capw p.length
    bitbuf := [] }.succeed

@[simp] theorem Block.revealed_hw (p : Payload) : (b.revealed p).hw = BitVec.ofNat P.hww (headerWidth b.cap) := rfl
@[simp] theorem Block.revealed_dlen (p : Payload) : (b.revealed p).dlen = BitVec.ofNat P.capw p.length := rfl
@[simp] theorem Block.revealed_olen (p : Payload) : (b.revealed p).olen = BitVec.ofNat P.capw p.length := rfl
@[simp] theorem Block.revealed_pay (p : Payload) : (b.revealed p).pay = (b.storeBytes 0 p).pay := rfl
@[simp] theorem Block.revealed_err (p : Payload) : (b.revealed p).err = 0 := Block.succeed_err _

/-- The delivered bytes stand in PAY from address 0 (R205). -/
theorem Block.readPay_revealed {p : Payload} {k : Nat} (hk : k < p.length) :
    (b.revealed p).readPay k = p.getD k 0 :=
  (b.readPay_storeBytes 0 p k).trans (if_pos ⟨k.zero_le, by omega⟩)

/-- Delivering the payload that stands in the PAY of `c` gives its length and its bytes (R210). -/
theorem Block.revealed_loadBytes (c : Block P) :
    (b.revealed (c.loadBytes c.plen.toNat)).olen = c.plen ∧
      ∀ k, k < c.plen.toNat → (b.revealed (c.loadBytes c.plen.toNat)).readPay k = c.readPay k := by
  have hlen := c.loadBytes_length c.plen.toNat
  refine ⟨?_, fun k hk => ?_⟩
  · rw [b.revealed_olen, hlen, BitVec.ofNat_toNat, BitVec.setWidth_eq]
  · rw [b.readPay_revealed (hk.trans_eq hlen.symm), Block.loadBytes_getD _ hk]

variable {b} {p : Payload}

/-- A payload a cover carries fits a register as wide as `CAPW` (R9). -/
theorem Block.Carries.toNat_length (h : b.Carries p) : (BitVec.ofNat P.capw p.length).toNat = p.length := by
  have hfits := h.fits
  have hcap := b.cap_lt
  exact (BitVec.toNat_ofNat _ _).trans (Nat.mod_eq_of_lt (by omega))

/-- The stream is a header in the first slots and the payload's bits in the slots after it (R90). -/
theorem Block.Carries.header_and_bits (h : b.Carries p) :
    b.readLsbs 0 (headerWidth b.cap) = encodeHeader p.length (headerWidth b.cap) ∧
      b.readLsbs (headerWidth b.cap) (8 * p.length) = bytesToBits p := by
  have hstream := h.stream
  rw [b.readLsbs_append, Nat.zero_add, streamOf] at hstream
  exact List.append_inj hstream (by rw [b.readLsbs_length, encodeHeader_length])

/-- A block with the dimensions of another has its capacity (R24). -/
theorem Block.cap_congr {d : Block P} (hwidth : d.width = b.width) (hheight : d.height = b.height)
    (hchannels : d.channels = b.channels) : d.cap = b.cap := by
  rw [Block.cap, hwidth, hheight, hchannels, Block.cap]

/-- What a cover carries depends on its capacity and on the LSBs of the stream's slots alone (R211). -/
theorem Block.Carries.congr (h : b.Carries p) {d : Block P} (hcap : d.cap = b.cap)
    (hlsb : ∀ k < headerWidth b.cap + 8 * p.length, lsb (d.readCov k) = lsb (b.readCov k)) : d.Carries p where
  fits := by rw [hcap]; exact h.fits
  short := by rw [hcap]; exact h.short
  stream := by
    rw [hcap, ← h.stream]
    exact d.readLsbs_congr fun k _ hk => hlsb k (by omega)

/-- REVEAL delivers the payload its cover carries (R205). -/
theorem Block.Carries.cmdReveal (h : b.Carries p) : b.cmdReveal = .next (b.revealed p) := by
  obtain ⟨hheader, hbits⟩ := h.header_and_bits
  have hlen : decodeHeader (b.readLsbs 0 (headerWidth b.cap)) = p.length := by
    rw [hheader, decodeHeader_encodeHeader, Nat.mod_eq_of_lt h.short]
  have hbytes : bitsToBytes (bytesToBits p) (some (8 * p.length)) = p :=
    bitsToBytes_bytesToBits (by rw [availableBits, bytesToBits_length, Nat.min_self])
  simp only [Block.cmdReveal, hlen, hbits, hbytes]
  exact if_neg (Nat.not_lt.2 h.fits)

/-- A cover whose header asks for no more than it holds carries the payload of that length that its slots spell. -/
theorem Block.exists_carries_of_passes_reveal (h : b.passes .reveal) :
    ∃ p, b.Carries p ∧ p.length = decodeHeader (b.readLsbs 0 (headerWidth b.cap)) := by
  have hfits : headerWidth b.cap + 8 * decodeHeader (b.readLsbs 0 (headerWidth b.cap)) ≤ b.cap := h
  have hshort := decodeHeader_lt (b.readLsbs 0 (headerWidth b.cap))
  have hheader := encodeHeader_decodeHeader (b.readLsbs 0 (headerWidth b.cap))
  rw [b.readLsbs_length] at hshort hheader
  generalize decodeHeader (b.readLsbs 0 (headerWidth b.cap)) = len at hfits hshort hheader ⊢
  have hbits := bytesToBits_bitsToBytes (b.readLsbs (headerWidth b.cap) (8 * len)) none
  have hlen : (bitsToBytes (b.readLsbs (headerWidth b.cap) (8 * len)) none).length = len := by
    rw [bitsToBytes_length, availableBits, b.readLsbs_length]; omega
  rw [availableBits, b.readLsbs_length, Nat.mul_div_cancel_left len (by decide),
    List.take_of_length_le (b.readLsbs_length _ _).le] at hbits
  refine ⟨bitsToBytes (b.readLsbs (headerWidth b.cap) (8 * len)) none, ⟨?_, ?_, ?_⟩, hlen⟩
  · rw [hlen]; exact hfits
  · rw [hlen]; exact hshort
  · rw [streamOf, hbits, hlen, hheader, b.readLsbs_append, Nat.zero_add]

/-! ### What HIDE leaves in the cover -/

variable {rnd : Nat → Bit}

/-- HIDE keeps the dimensions, so the capacity (R200). -/
theorem Block.effect_hide_cap (b : Block P) (rnd : Nat → Bit) : (b.effect rnd .hide).cap = b.cap :=
  b.writeStream_cap _ _

/-- After a HIDE whose tests pass, the cover carries the payload of PAY (R200, R210). -/
theorem Block.carries_effect_hide (h : b.passes .hide) (rnd : Nat → Bit) :
    (b.effect rnd .hide).Carries (b.loadBytes b.plen.toNat) := by
  obtain ⟨-, hfits, hshort⟩ := h
  have hlen := b.loadBytes_length b.plen.toNat
  have hcap := b.effect_hide_cap rnd
  refine ⟨by rw [hlen, hcap]; omega, by rw [hlen, hcap]; exact hshort, ?_⟩
  rw [hlen, hcap]
  have hstream := streamOf_loadBytes_length b (headerWidth b.cap) b.plen.toNat
  refine bitSeq_ext ((Block.readLsbs_length _ _ _).trans hstream.symm) fun k hk => ?_
  rw [Block.readLsbs_length] at hk
  rw [Block.bitAt_readLsbs _ _ hk, Nat.zero_add]
  exact (congrArg lsb (b.readCov_writeStream_of_lt _ _ (hk.trans_eq hstream.symm))).trans (lsb_putBit _ _ _)

/-- A HIDE that ends with `ERR` 0 has passed its tests and had its whole effect (R36, R226). -/
theorem Block.effect_of_cmdHide_ok {d : Block P} (h : b.cmdHide rnd = .next d) (hok : d.ok) :
    b.passes .hide ∧ d = (b.effect rnd .hide).succeed := by
  rcases b.command_next rnd (i := .hide) h with ⟨c, -, rfl⟩ | heffect
  · exact absurd ((b.raise_err c).symm.trans hok) c.code_ne_zero
  · exact heffect

end

/-! ### HIDE, test by test -/

/-- HIDE with a legal filler mode raises what the capacity check reports (R200). -/
theorem exec_hide_of_check {s : State} {c : Cause} (hfill : s.fill? ≠ none)
    (hc : capacityCheck s.plen.toNat s.cap (headerWidth s.cap) = some c) : exec .hide s = .next (s.raised c) := by
  obtain ⟨f, hf⟩ := Option.ne_none_iff_exists'.1 hfill
  refine exec_of_raise ?_
  simp only [Block.command, Block.cmdHide, hf, hc]

/-- Settles O45: the reserved filler mode, then what the capacity check reports, then the cover. -/
theorem hideChecksThenWritesTheStream : Obligations.HideChecksThenWritesTheStream := by
  refine ⟨rfl, fun s => ⟨fun hreserved => ?_, fun hmode hcover => ?_, fun hmode hcover hheader => ?_,
    fun hmode hcover hheader => ?_⟩⟩
  · refine exec_of_raise ?_
    simp only [Block.command, Block.cmdHide, s.toBlock.fill?_eq_none.2 hreserved]
  · exact exec_hide_of_check (s.toBlock.fill?_eq_none.not.2 hmode) (capacityCheck_eq_cover.2 hcover)
  · exact exec_hide_of_check (s.toBlock.fill?_eq_none.not.2 hmode) (capacityCheck_eq_header.2 ⟨hcover, hheader⟩)
  · obtain ⟨f, hf⟩ := Option.ne_none_iff_exists'.1 (s.toBlock.fill?_eq_none.not.2 hmode)
    have hlen := streamOf_loadBytes_length s.toBlock (headerWidth s.cap) s.plen.toNat
    refine ⟨_, _, _, exec_hide_of_fill hf hcover hheader, s.toBlock.toNat_headerWidth, fun k hk => ?_, ?_⟩
    · rw [← bitAt_streamOf s.toBlock hk]
      exact s.toBlock.readCov_writeStream_of_lt _ _ (hk.trans_eq hlen.symm)
    · rw [← hlen]
      exact tailFilled_of_writeStream (rnd := Config.draw s.draws) hf (hlen.trans_le (by omega)) fun _ => rfl

/-! ### REVEAL -/

/-- Settles O46: the header's length decides, and byte `k` is the group of eight slots after the header. -/
theorem revealDeliversThePayload : Obligations.RevealDeliversThePayload := by
  refine ⟨rfl, fun s h len hh hlen => ?_⟩
  subst hh
  rw [← s.toBlock.decodeHeader_readLsbs] at hlen
  subst hlen
  have hread := s.toBlock.readPay_effect_reveal (Config.draw s.draws)
  refine ⟨fun hlong => exec_of_raise (if_pos hlong), fun hfits => ?_⟩
  refine ⟨_, _, _, exec_reveal_of_fits rfl hfits, s.toBlock.toNat_headerWidth,
    s.toBlock.toNat_decodeHeader_readLsbs, fun k hk => ?_, fun k j hk hj => ?_⟩
  · exact (hread k).trans (if_neg (Nat.not_lt.2 hk))
  · refine (congrArg (BitVec.extractLsb' (7 - j) 1) ((hread k).trans (if_pos hk))).trans ?_
    rw [extractLsb_byteFrom _ _ (Nat.lt_succ_of_le hj), Block.bitAt_readLsbs _ _ (by omega), ← Nat.add_assoc]

/-! ### The command sequences -/

/-- The first four commands of R202's sequence, where HIDE's tests pass: `HW` is the header width and BITBUF the
stream. -/
theorem runCommands_encode {s : State} (hfits : 8 * s.plen.toNat + headerWidth s.cap ≤ s.cap)
    (hshort : s.plen.toNat < 2 ^ headerWidth s.cap) (is : List Instr) :
    runCommands (.hwidth :: .validate :: .bytes2bits :: .enchdr :: is) s = runCommands is
      { s with
        hw := BitVec.ofNat _ (headerWidth s.cap)
        bitbuf := streamOf (headerWidth s.cap) (s.loadBytes s.plen.toNat)
        status := statusOf s.faultFlag 0 } := by
  have hw := s.toBlock.toNat_headerWidth
  have hlegal := s.toBlock.headerWidth_cap_le
  have hroom : 8 * s.plen.toNat + headerWidth s.cap ≤ 2 ^ Config.params.blw - 1 := by
    have hcap := s.toBlock.cap_lt
    have hblw := eight_mul_two_pow_capw_le Config.params
    omega
  rw [runCommands_cons (exec_of_passes_of_not_drawing (i := .hwidth) trivial rfl),
    runCommands_cons (exec_of_passes_of_not_drawing (i := .validate) ?validate rfl),
    runCommands_cons (exec_of_passes_of_not_drawing (i := .bytes2bits) trivial rfl),
    runCommands_cons (exec_of_passes_of_not_drawing (i := .enchdr) ?enchdr rfl)]
  case validate =>
    simp only [Block.passes, Block.effect, Block.succeed_hw, hw]
    exact ⟨hlegal, hfits, hshort⟩
  case enchdr =>
    simp only [Block.passes, Block.effect, Block.succeed_hw, Block.succeed_bitbuf, Block.bytesToBits_loadBytes_length,
      hw]
    exact ⟨hlegal, hshort, hroom⟩
  simp only [Block.effect, Block.succeed, statusSucceeded_succeeded, hw, streamOf, Block.loadBytes_length]
  rfl

/-- Settles O47: the six commands bring the stream into BITBUF, write it with the draws HIDE would use, and empty
BITBUF. -/
theorem hideEqualsItsCommandSequence : Obligations.HideEqualsItsCommandSequence := by
  intro s t h hok
  obtain ⟨hfill, hfits, hshort⟩ := passes_of_exec_ok h hok
  obtain ⟨f, hf⟩ := Option.ne_none_iff_exists'.1 hfill
  have hlen := streamOf_loadBytes_length s.toBlock (headerWidth s.cap) s.plen.toNat
  have hcov (hw buf status) (filler : Option (Nat → Bit)) (bits : BitSeq) :
      ({ s.toBlock with hw := hw, bitbuf := buf, status := status }.writeStream filler bits).cov =
        (s.writeStream filler bits).cov :=
    Block.writeStream_cov_congr _ _ (by rfl) (by rfl) (by rfl) filler bits
  refine (runCommands_encode hfits hshort _).trans ((runCommands_cons (exec_wrbits_of_fill (f := f) ?_ ?_)).trans
    ((runCommands_cons (exec_of_passes_of_not_drawing (i := .bclr) trivial rfl)).trans ?_))
  · exact hf
  · exact hlen.trans_le (by rw [Nat.add_comm]; exact hfits)
  · rw [← h, exec_hide_of_fill hf hfits hshort]
    simp only [runCommands, Block.effect, Block.succeed, Block.faultFlag, statusSucceeded_of, statusFault_of, hcov]

/-- DECHDR where BITBUF is the run of the first `n` LSBs: the header's length goes to `DLEN`, the LSBs after the header
stay (R153). -/
theorem exec_dechdr_of_readLsbs {s : State} {h n : Nat} (hw : s.hw.toNat = h) (hlegal : h ≤ Config.params.capw)
    (hbuf : s.bitbuf = s.readLsbs 0 n) (hn : h ≤ n) :
    exec .dechdr s = .next
      { s with
        dlen := BitVec.ofNat _ (decodeHeader (s.readLsbs 0 h))
        bitbuf := s.readLsbs h (n - h)
        status := statusOf s.faultFlag 0 } := by
  subst hw
  have hp : s.toBlock.passes .dechdr := ⟨hlegal, hn.trans_eq (by rw [hbuf, Block.readLsbs_length])⟩
  rw [exec_of_passes_of_not_drawing hp rfl]
  simp only [Block.effect, hbuf, s.toBlock.readLsbs_take 0 hn, s.toBlock.readLsbs_drop 0 hn, Nat.zero_add]
  rfl

/-- BITS2BYTESD delivers as many bytes as BITBUF makes, `DLEN` at most, and counts them in `OLEN` (R127). -/
theorem exec_bits2bytesd (s : State) :
    exec .bits2bytesd s = .next
      { s with
        pay := (s.storeBytes 0 (bitsToBytes s.bitbuf (some (8 * s.dlen.toNat)))).pay
        olen := BitVec.ofNat _ (min (s.bitbuf.length / 8) s.dlen.toNat)
        status := statusOf s.faultFlag 0 } := by
  have hlt : availableBits s.bitbuf (some (8 * s.dlen.toNat)) / 8 < 2 ^ Config.params.capw := by
    rw [availableBits_eight_mul_div]
    exact (Nat.min_le_right _ _).trans_lt s.dlen.isLt
  rw [exec_of_passes_of_not_drawing (i := .bits2bytesd) trivial rfl]
  simp only [Block.effect]
  rw [Block.decodedBy_of_lt _ hlt, availableBits_eight_mul_div, Block.storeBytes_frame]
  rfl

/-- The first three commands of R207's sequence: `DLEN` is the header's length, BITBUF the LSBs of the slots after
it. -/
theorem runCommands_readHeader (s : State) (is : List Instr) :
    runCommands (.readall :: .hwidth :: .dechdr :: is) s = runCommands is
      { s with
        hw := BitVec.ofNat _ (headerWidth s.cap)
        dlen := BitVec.ofNat _ (decodeHeader (s.readLsbs 0 (headerWidth s.cap)))
        bitbuf := s.readLsbs (headerWidth s.cap) (s.cap - headerWidth s.cap)
        status := statusOf s.faultFlag 0 } := by
  refine (runCommands_cons (exec_readall s)).trans
    ((runCommands_cons (exec_of_passes_of_not_drawing (i := .hwidth) trivial rfl)).trans
    ((runCommands_cons (exec_dechdr_of_readLsbs s.toBlock.toNat_headerWidth s.toBlock.headerWidth_cap_le rfl
      (headerWidth_le_self s.cap))).trans ?_))
  simp only [Block.effect, Block.succeed, Block.faultFlag, statusSucceeded_of, statusFault_of]
  rfl

/-- R207's sequence delivers as many bytes as the slots after the header make, the header's length at most. -/
theorem runCommands_decode {s : State} {h len : Nat} (hh : h = headerWidth s.cap)
    (hlen : len = decodeHeader (s.readLsbs 0 h)) :
    runCommands [.readall, .hwidth, .dechdr, .bits2bytesd, .bclr] s = .next
      { s with
        pay := (s.storeBytes 0 (bitsToBytes (s.readLsbs h (s.cap - h)) (some (8 * len)))).pay
        hw := BitVec.ofNat _ h
        dlen := BitVec.ofNat _ len
        olen := BitVec.ofNat _ (min ((s.cap - h) / 8) len)
        bitbuf := []
        status := statusOf s.faultFlag 0 } := by
  subst hh hlen
  have hpay (hw dlen buf status bytes) :
      ({ s.toBlock with hw := hw, dlen := dlen, bitbuf := buf, status := status }.storeBytes 0 bytes).pay =
        (s.storeBytes 0 bytes).pay := Block.storeBytes_pay_congr _ _ (by rfl) 0 bytes
  refine (runCommands_readHeader s _).trans ((runCommands_cons (exec_bits2bytesd _)).trans
    ((runCommands_cons (exec_of_passes_of_not_drawing (i := .bclr) trivial rfl)).trans ?_))
  simp only [runCommands, Block.effect, Block.succeed, Block.faultFlag, statusSucceeded_of, statusFault_of,
    Block.readLsbs_length, s.toBlock.toNat_decodeHeader_readLsbs, hpay]

/-- A command ends with `ERR` 0 exactly where its tests pass (R36, R226). -/
theorem exec_ok_iff_passes {i : Instr} {s t : State} (h : exec i s = .next t) : t.ok ↔ s.toBlock.passes i := by
  refine ⟨passes_of_exec_ok h, fun hp => ?_⟩
  obtain rfl : s.after i (s.toBlock.effect (Config.draw s.draws) i).succeed = t :=
    Host.Outcome.next.inj ((exec_of_passes hp).symm.trans h)
  exact Block.succeed_err _

/-- Settles O48: where the header's length fits, the sequence delivers that many bytes of the same slots; where it does
not, the slots after the header make fewer bytes than `DLEN` says. -/
theorem revealEqualsItsCommandSequence : Obligations.RevealEqualsItsCommandSequence := by
  intro s t h
  have hok : t.ok ↔ headerWidth s.cap + 8 * decodeHeader (s.readLsbs 0 (headerWidth s.cap)) ≤ s.cap :=
    exec_ok_iff_passes h
  have hseq := runCommands_decode (s := s) rfl rfl
  have hheader := headerWidth_le_self s.cap
  rw [hok]
  refine ⟨fun hfits => ?_, fun hlong => ?_⟩
  · rw [hseq, ← h, exec_reveal_of_fits rfl hfits, bitsToBytes_some_of_le (by rw [Block.readLsbs_length]; omega),
      Block.readLsbs_take _ _ (by omega), Nat.min_eq_right (by omega)]
  · have hfewer : (s.cap - headerWidth s.cap) / 8 < decodeHeader (s.readLsbs 0 (headerWidth s.cap)) := by omega
    have holen : (BitVec.ofNat Config.params.capw ((s.cap - headerWidth s.cap) / 8)).toNat =
        (s.cap - headerWidth s.cap) / 8 := by
      have hcap := s.toBlock.cap_lt
      exact (BitVec.toNat_ofNat _ _).trans (Nat.mod_eq_of_lt (by omega))
    rw [Nat.min_eq_left hfewer.le] at hseq
    refine ⟨_, hseq, statusErr_of _ 0, holen, ?_⟩
    rw [holen, s.toBlock.toNat_decodeHeader_readLsbs]
    exact hfewer

/-! ### The round trip -/

/-- Settles O49: HIDE left a cover that carries the payload, the other block carries what that cover carries, and REVEAL
delivers it. -/
theorem hideThenRevealGivesThePayload : Obligations.HideThenRevealGivesThePayload := by
  intro P rnd b d u h hok hwidth hheight hchannels hlsb
  obtain ⟨hp, rfl⟩ := Block.effect_of_cmdHide_ok h hok
  have hcap : u.cap = b.cap := Block.cap_congr hwidth hheight hchannels
  have hcarries : u.Carries (b.loadBytes b.plen.toNat) := by
    refine (Block.carries_effect_hide hp rnd).congr (hcap.trans (b.effect_hide_cap rnd).symm) ?_
    rw [b.effect_hide_cap, Block.loadBytes_length]
    exact hlsb
  obtain ⟨holen, hpay⟩ := u.revealed_loadBytes b
  exact ⟨_, hcarries.cmdReveal, u.revealed_err _, holen, holen, hpay⟩

/-- Settles O53: where the one REVEAL delivers a payload, both covers carry it; else neither passes the test. -/
theorem revealDependsOnTheStreamSlotsAlone : Obligations.RevealDependsOnTheStreamSlotsAlone := by
  intro P b d hwidth hheight hchannels hlsb
  have hcap : d.cap = b.cap := Block.cap_congr hwidth hheight hchannels
  by_cases hp : b.passes .reveal
  · obtain ⟨p, hb, hlen⟩ := Block.exists_carries_of_passes_reveal hp
    have hd : d.Carries p := hb.congr hcap (by rw [hlen]; exact hlsb)
    refine ⟨_, _, hb.cmdReveal, hd.cmdReveal, ?_, fun _ => ⟨?_, rfl, rfl, fun k hk => ?_⟩⟩
    · rw [b.revealed_err, d.revealed_err]
    · rw [b.revealed_hw, d.revealed_hw, hcap]
    · rw [b.revealed_olen, hb.toNat_length] at hk
      rw [b.readPay_revealed hk, d.readPay_revealed hk]
  · have hheader : d.readLsbs 0 (headerWidth b.cap) = b.readLsbs 0 (headerWidth b.cap) :=
      d.readLsbs_congr fun k _ hk => hlsb k (by omega)
    have hp' : ¬ d.passes .reveal := by
      simp only [Block.passes, hcap, hheader]; exact hp
    refine ⟨_, _, Block.command_of_mayRaise_singleton (fun _ => 0) hp rfl,
      Block.command_of_mayRaise_singleton (fun _ => 0) hp' rfl, ?_, fun hok => ?_⟩
    · rw [Block.raise_err, Block.raise_err]
    · exact absurd ((b.raise_err _).symm.trans hok) (Cause.code_ne_zero _)

/-- Any writes to PAY by the host change PAY and nothing else (R39). -/
theorem Block.moves_overwrites {P : Params} (b : Block P) (ws : List (BitVec P.capw × Byte)) :
    ∃ m, b.Moves (ws.map fun p => .payWrite p.1 p.2) { b with pay := m } := by
  induction ws generalizing b with
  | nil => exact ⟨b.pay, .nil b⟩
  | cons w ws ih =>
    obtain ⟨m, hm⟩ := ih (b.writePay w.1.toNat w.2)
    exact ⟨m, .cons (fun _ => rfl) hm⟩

/-- A REVEAL of a cover that carries a payload, as a transaction. -/
theorem Block.Carries.takes_reveal {P : Params} {b : Block P} {p : Payload} (h : b.Carries p) :
    b.Takes (.cmd (encodeWord .reveal)) (b.revealed p) := by
  intro m
  rw [performTxn, issueCommand_encodeWord, System.command, System.run]
  exact congrArg (mapNext _) h.cmdReveal

/-- Settles O50: HIDE leaves a cover that carries the payload, writes to PAY keep it so, and REVEAL delivers it. -/
theorem hideOverwriteRevealRun : Obligations.HideOverwriteRevealRun := by
  intro s ws hhost hmode hfits hshort
  have hp : s.toBlock.passes .hide := ⟨s.toBlock.fill?_eq_none.not.2 hmode, hfits, hshort⟩
  have hhide := (step_command (i := .hide) hhost).trans (exec_of_passes (s := { s with host := _ }) hp)
  have hcarries := Block.carries_effect_hide hp (Config.draw s.draws)
  generalize s.toBlock.effect (Config.draw s.draws) .hide = d at hcarries hhide
  obtain ⟨m, hoverwrites⟩ := d.succeed.moves_overwrites ws
  have hcarries' : Block.Carries { d.succeed with pay := m } (s.loadBytes s.plen.toNat) :=
    hcarries.congr rfl fun _ _ => rfl
  have hrun := core_run_moves (s.after .hide d.succeed) (hoverwrites.append hcarries'.takes_reveal.moves) []
  obtain ⟨holen, hpay⟩ := Block.revealed_loadBytes { d.succeed with pay := m } s.toBlock
  refine ⟨_, (core_run_of_step hhide).trans (Eq.trans ?_ hrun), Block.revealed_err _ _, rfl, holen, hpay⟩
  rw [List.length_append, List.length_map, List.map_append, List.map_map, List.append_nil]
  rfl

/-- REVEAL on a machine whose cover carries a payload delivers it (R205). -/
theorem exec_reveal_of_carries {s : State} {p : Payload} (h : s.toBlock.Carries p) :
    exec .reveal s = .next { s with toBlock := s.toBlock.revealed p } :=
  exec_next.2 ⟨_, h.cmdReveal, rfl⟩

/-- On a cover of fewer than 16 slots the empty payload has an empty stream, so HIDE with no filler writes nothing
(R213). -/
theorem Block.effect_hide_cov_of_empty {P : Params} {b : Block P} (rnd : Nat → Bit) (hplen : b.plen.toNat = 0)
    (hcap : b.cap < 16) (hf : b.fill? = some .none) : (b.effect rnd .hide).cov = b.cov := by
  have hheader : headerWidth b.cap = 0 := Nat.le_zero.1 ((headerWidth_le_iff _ 0).2 (by omega))
  simp only [Block.effect, hf, hplen, hheader]
  rfl

/-- Settles O51: the empty payload passes HIDE's tests, so the cover carries it; a cover of fewer than 16 slots has no
header, so the stream is empty. -/
theorem emptyPayloadRoundTrip : Obligations.EmptyPayloadRoundTrip := by
  intro s hplen hmode
  have hzero : s.plen.toNat = 0 := by rw [hplen]; rfl
  have hp : s.toBlock.passes .hide := by
    refine ⟨s.toBlock.fill?_eq_none.not.2 hmode, ?_, hzero.trans_lt (Nat.two_pow_pos _)⟩
    rw [hzero]
    exact (Nat.zero_add _).trans_le (headerWidth_le_self _)
  have hcarries := Block.carries_effect_hide hp (Config.draw s.draws)
  rw [hzero] at hcarries
  refine ⟨_, _, exec_of_passes hp, Block.succeed_err _, exec_reveal_of_carries (p := []) ?_, Block.revealed_err _ _,
    rfl, s.toBlock.writeStream_pay _ _, fun hcap hnone => ?_⟩
  · exact hcarries.congr rfl fun _ _ => rfl
  · exact Block.effect_hide_cov_of_empty _ hzero hcap (s.toBlock.fill?_eq_no_filler.2 hnone)

end Sys2Proof.Machine

/-! Control (spec/44_control.md): every command ends, and what NOP and ECLR leave. -/

namespace Sys2Proof.Machine

/-- Every command ends in a next state of the machine, for any parameters (R217). -/
theorem System.command_ends {P : Params} (m : System P) (i : Instr) : ∃ t, m.command i = .next t := by
  obtain ⟨b, hb⟩ := m.toBlock.command_ends (Config.draw m.draws) i
  exact ⟨m.after i b, m.command_next.2 ⟨b, hb, rfl⟩⟩

/-- Every command ends in a next state of the host's machine (R217). -/
theorem exec_ends (i : Instr) (s : State) : ∃ t, exec i s = .next t := by
  obtain ⟨b, hb⟩ := s.toBlock.command_ends (Config.draw s.draws) i
  exact ⟨s.after i b, exec_next.2 ⟨b, hb, rfl⟩⟩

/-- Settles O21: on the block a command has its effect or raises a cause, and either way the machine takes the block
back. -/
theorem everyCommandCompletes : Obligations.EveryCommandCompletes :=
  ⟨exec_ends, fun _ i m => m.command_ends i⟩

/-- Settles O22: neither command has a test; NOP has no effect beyond that of succeeding, which keeps `FAULT`, and
ECLR's effect has cleared `FAULT` before it. -/
theorem nopAndEclr : Obligations.NopAndEclr := by
  refine ⟨⟨rfl, fun s => ?_⟩, ⟨rfl, fun s => ?_⟩⟩
  · exact exec_of_passes_of_not_drawing (i := .nop) trivial rfl
  · rw [exec_of_passes_of_not_drawing (i := .eclr) trivial rfl, Block.effect, Block.succeed, statusSucceeded_zero]

end Sys2Proof.Machine

/-! Faults and idling (spec/60_exceptions.md): what a command that ends with a fault code has done, what a run without
ECLR tells by `FAULT` at its end, and a step with no line to take. -/

namespace Sys2Proof.Machine

/-! ### Runs of commands -/

/-- A run that comes to its end has done its first command, and then the others from there. -/
theorem runCommands_cons_next {i : Instr} {is : List Instr} {s t : State} :
    runCommands (i :: is) s = .next t ↔ ∃ u, exec i s = .next u ∧ runCommands is u = .next t := by
  obtain ⟨v, hv⟩ := exec_ends i s
  rw [runCommands_cons hv, hv]
  exact ⟨fun h => ⟨v, rfl, h⟩, fun ⟨_, hu, h⟩ => Host.Outcome.next.inj hu ▸ h⟩

/-- The state a run of at least one command ends in is what its last command gave. -/
theorem exists_exec_of_runCommands {is : List Instr} (hne : is ≠ []) {s t : State} (h : runCommands is s = .next t) :
    ∃ i u, exec i u = .next t := by
  induction is generalizing s with
  | nil => exact absurd rfl hne
  | cons i is ih =>
    obtain ⟨u, hu, hrest⟩ := runCommands_cons_next.1 h
    cases is with
    | nil => exact ⟨i, s, hu.trans hrest⟩
    | cons j js => exact ih (List.cons_ne_nil j js) hrest

/-- Along a run without ECLR, `FAULT` once set stays set (R36, R237). -/
theorem runCommands_keeps_faultFlag {is : List Instr} (heclr : Instr.eclr ∉ is) {s t : State}
    (h : runCommands is s = .next t) (hs : s.faultFlag = 1) : t.faultFlag = 1 := by
  induction is generalizing s with
  | nil => exact Host.Outcome.next.inj h ▸ hs
  | cons i is ih =>
    obtain ⟨hi, his⟩ := List.ne_and_not_mem_of_not_mem_cons heclr
    obtain ⟨u, hu, hrest⟩ := runCommands_cons_next.1 h
    exact ih his hrest (((faultFlagIsSticky i s u hu).1 hi.symm).2 (.inl hs))

/-! ### The statements -/

/-- Settles O18: a command raises one of its causes or has its whole effect, and the latter ends with `ERR` 0. -/
theorem commandsRaiseOnlyTheirCauses : Obligations.CommandsRaiseOnlyTheirCauses := by
  intro i s t h herr
  rcases exec_cases h with hraised | ⟨-, rfl⟩
  · exact hraised
  · exact absurd (Block.succeed_err _) herr

/-- Settles O17: such a command raised a cause, which writes STATUS alone. -/
theorem faultingCommandChangesOnlyStatus : Obligations.FaultingCommandChangesOnlyStatus := by
  intro i s t h herr
  obtain ⟨c, -, rfl⟩ := commandsRaiseOnlyTheirCauses i s t h herr
  exact ⟨rfl, s.toBlock.raise_faultFlag c⟩

/-- Settles O20: a fault code before the cut comes with `FAULT` set, and the commands after the cut keep it set. -/
theorem runEndingWithoutFaultHadNone : Obligations.RunEndingWithoutFaultHadNone := by
  intro before after s m t _ hafter hne hbefore hrest hfault
  obtain ⟨i, u, hi⟩ := exists_exec_of_runCommands hne hbefore
  by_contra herr
  have hset : m.faultFlag = 1 := (faultingCommandChangesOnlyStatus i u m hi herr).2
  exact absurd (hfault.symm.trans (runCommands_keeps_faultFlag hafter hrest hset)) (by decide)

/-- Settles O6: with no line to take, a step is the block idling (log 6). -/
theorem idleBlockKeepsItsState : Obligations.IdleBlockKeepsItsState := by
  intro s h
  rw [step_eq_system_step, System.step, takeLine, h, mapNext_next]

/-- Settles O16: raising writes STATUS from its two fields, and the numbers of the codes are R220's. -/
theorem raiseWritesStatusOnly : Obligations.RaiseWritesStatusOnly := by
  intro P b c
  refine ⟨rfl, b.raise_faultFlag c, ?_, ?_⟩
  · have hflag : statusFault (b.raise c).status = 1 := b.raise_faultFlag c
    rw [status_toNat, hflag]
    rfl
  · rw [Block.raise_err]
    cases c <;> rfl

end Sys2Proof.Machine

/-! What HIDE needs of the host (spec/70_reset_and_hazards.md): nothing in the working registers. -/

namespace Sys2Proof.Machine

/-- Settles O52: HIDE's tests, its stream and the cover it leaves read none of these, and it writes `HW` and BITBUF
itself. -/
theorem hideIgnoresTheWorkingRegisters : Obligations.HideIgnoresTheWorkingRegisters := by
  intro s t hw buf lim idx dlen olen x h hok
  obtain ⟨hfill, hfits, hshort⟩ := passes_of_exec_ok h hok
  obtain ⟨f, hf⟩ := Option.ne_none_iff_exists'.1 hfill
  have hcov (filler : Option (Nat → Bit)) (bits : BitSeq) :
      ({ s.toBlock with
          hw := hw, bitbuf := buf, limit := lim, idx := idx, bit := x, dlen := dlen, olen := olen }.writeStream
        filler bits).cov = (s.writeStream filler bits).cov :=
    Block.writeStream_cov_congr _ _ (by rfl) (by rfl) (by rfl) filler bits
  obtain rfl := Host.Outcome.next.inj ((exec_hide_of_fill hf hfits hshort).symm.trans h)
  refine (exec_hide_of_fill (f := f) (by exact hf) (by exact hfits) (by exact hshort)).trans ?_
  rw [hcov]
  rfl

end Sys2Proof.Machine
